-- ==== Sys2Proof/Word.lean ====
section
/-! DEFINITION. The bit-vector widths of IDTEL (00_scope.md R9, R12; 10_state.md R25, R27; 30_encoding.md R80). -/

namespace Sys2Proof

/-- One byte of memory. -/
abbrev Byte := BitVec 8

/-- A 64-bit address: a handler address or an address of table memory (R9 `ADDR_BITS`). -/
abbrev Addr := BitVec 64

/-- A code-segment selector (R9 `SEL_BITS`). -/
abbrev Selector := BitVec 16

/-- An alternate-stack index (R9 `IST_BITS`). -/
abbrev Ist := BitVec 3

/-- A trap number, which is a slot index (R9 `SLOTS`). -/
abbrev Vec := BitVec 8

/-- A gate descriptor (R70). -/
abbrev Desc := BitVec 128

/-- The control-register payload, and the dispatch-table register (R27, R76). -/
abbrev Payload := BitVec 80

/-- A command word (R80). -/
abbrev Cmd := BitVec 96

end Sys2Proof
end

