-- ==== Sys2Proof/Syntax.lean ====
section
/-! DEFINITION. The five commands (spec/opcode_table.json; 30_encoding.md R84), the assembler's source lines
(30_encoding.md R89, R90) and the names of the block faults (60_exceptions.md R171). -/

namespace Sys2Proof

/-- A command of the issuer, one constructor per row of the opcode table. The fields have the widths of the command word,
so an alternate-stack index outside 0..7 cannot be presented (R81). -/
inductive Instr where
  /-- `ENC`: encode a descriptor into `DOUT` (R105). -/
  | enc (ist : Ist) (handler : Addr)
  /-- `SETGATE`: encode a descriptor into one slot (R120). -/
  | setgate (vec : Vec) (ist : Ist) (handler : Addr)
  /-- `CLRALL`: write the not-present descriptor into every slot (R125). -/
  | clrall
  /-- `RDSLOT`: copy one slot into `DOUT` (R130). -/
  | rdslot (vec : Vec)
  /-- `LOAD`: activate the table (R150). -/
  | load
deriving DecidableEq, Repr

/-- The causes of a block fault (R171). Codes 6 to 15 are reserved and never raised. -/
inductive BlockFault where
  | illegalOp
  | rsvdBits
  | uninitRead
  | writeAfterActivate
  | reactivate
deriving DecidableEq, Repr

/-- One line of assembler source with its operands as the numbers written there (R89), and the two pseudo-instructions with
their six handler addresses `h_df, h_np, h_ss, h_gp, h_pf, h_app` (R90). -/
inductive Asm where
  | enc (handler ist : Nat)
  | setgate (vec handler ist : Nat)
  | clrall
  | rdslot (vec : Nat)
  | load
  | idtPopulate (hDf hNp hSs hGp hPf hApp : Nat)
  | idtInit (hDf hNp hSs hGp hPf hApp : Nat)
deriving DecidableEq, Repr

end Sys2Proof
end

