-- ==== Sys2Proof/Decode.lean ====
section
/-! DEFINITION. The command word `CMD96`: its fields, opcode map, must-be-zero masks, decoder and encoder
(30_encoding.md R80-R88). -/

namespace Sys2Proof

/-! ### Fields (R80, R81) -/

/-- `OP = w[3:0]`. -/
def opField (w : Cmd) : BitVec 4 := w.extractLsb' 0 4

/-- `IST = w[6:4]`, used as is. -/
def istField (w : Cmd) : Ist := w.extractLsb' 4 3

/-- `VEC = w[15:8]`. -/
def vecField (w : Cmd) : Vec := w.extractLsb' 8 8

/-- `HANDLER = w[95:32]`, taken as is. -/
def handlerField (w : Cmd) : Addr := w.extractLsb' 32 64

/-! ### Opcode map and masks (R84, R85) -/

/-- The legal opcodes. -/
inductive Opcode where
  | enc
  | setgate
  | clrall
  | rdslot
  | load
deriving DecidableEq, Repr

/-- The opcode map (R84); 0x0 and 0x6 to 0xF are illegal (R87). -/
def opcodeOf (op : BitVec 4) : Option Opcode :=
  if op = 0x1#4 then some .enc
  else if op = 0x2#4 then some .setgate
  else if op = 0x3#4 then some .clrall
  else if op = 0x4#4 then some .rdslot
  else if op = 0x5#4 then some .load
  else none

/-- The number of an opcode (R84). -/
def opcodeBits : Opcode → BitVec 4
  | .enc => 0x1#4
  | .setgate => 0x2#4
  | .clrall => 0x3#4
  | .rdslot => 0x4#4
  | .load => 0x5#4

/-- `MBZ(op)`, the bits that must be zero (R85). -/
def mbz : Opcode → Cmd
  | .enc => 0x0000000000000000FFFFFF80#96
  | .setgate => 0x0000000000000000FFFF0080#96
  | .clrall => 0xFFFFFFFFFFFFFFFFFFFFFFF0#96
  | .rdslot => 0xFFFFFFFFFFFFFFFFFFFF00F0#96
  | .load => 0xFFFFFFFFFFFFFFFFFFFFFFF0#96

/-- The command an opcode selects, with the operands it uses (R84). -/
def instrOf (op : Opcode) (w : Cmd) : Instr :=
  match op with
  | .enc => .enc (istField w) (handlerField w)
  | .setgate => .setgate (vecField w) (istField w) (handlerField w)
  | .clrall => .clrall
  | .rdslot => .rdslot (vecField w)
  | .load => .load

/-! ### The decoder (R86) -/

/-- What decoding a word gives: a command, or the block fault that refuses the word by name. -/
inductive Decoded where
  | command (i : Instr)
  | blockFault (f : BlockFault)
deriving DecidableEq, Repr

/-- `decode_cmd` (R86), total on every word. The opcode check comes before the reserved-bit check (R172). -/
def decode (w : Cmd) : Decoded :=
  match opcodeOf (opField w) with
  | none => .blockFault .illegalOp
  | some op =>
    if w &&& mbz op = 0#96 then .command (instrOf op w) else .blockFault .rsvdBits

/-! ### The encoder (R80, R84, R89) -/

/-- A word from its fields, with `RSV0` and `RSV1` zero: `(handler << 32) | (vec << 8) | (ist << 4) | op` (R89). -/
def cmdWord (op : Opcode) (vec : Vec) (ist : Ist) (handler : Addr) : Cmd :=
  handler ++ 0#16 ++ vec ++ 0#1 ++ ist ++ opcodeBits op

/-- The word of a command; every field the command does not use is zero (R85). -/
def encode : Instr → Cmd
  | .enc ist handler => cmdWord .enc 0#8 ist handler
  | .setgate vec ist handler => cmdWord .setgate vec ist handler
  | .clrall => cmdWord .clrall 0#8 0#3 0#64
  | .rdslot vec => cmdWord .rdslot vec 0#3 0#64
  | .load => cmdWord .load 0#8 0#3 0#64

/-- The opcode of a command (R84). -/
def Instr.opcode : Instr → Opcode
  | .enc _ _ => .enc
  | .setgate _ _ _ => .setgate
  | .clrall => .clrall
  | .rdslot _ => .rdslot
  | .load => .load

/-! ### The opcode table -/

/-- The command word that a table word of `nbits` bits stands for: the bits above `nbits` are zero, and a command is 96 bits
(R80). -/
def tableWord (nbits w : Nat) : Cmd := BitVec.ofNat 96 (w % 2 ^ nbits)

/-- What the decoder reads from a word of the opcode table; none where it refuses. -/
def decodeTableWord (nbits w : Nat) : Option Instr :=
  match decode (tableWord nbits w) with
  | .command i => some i
  | .blockFault _ => none

end Sys2Proof
end

