-- ==== Sys2Proof/Config.lean ====
section
/-! DEFINITION. What the spec leaves open as parameters of the model (00_scope.md R10; 92_eei_decisions.md D10-D12, D26, D30).
A state carries one `Config`, which no step changes, so a claim about every state is a claim about every configuration. -/

namespace Sys2Proof

/-- A run of `size` valid code addresses from `base`. Any set of 64-bit addresses is a finite union of such runs. -/
structure CodeRegion where
  base : Addr
  size : Nat
deriving DecidableEq, Repr, Inhabited

/-- The open parameters. The bounds the spec puts on them are in the types. -/
structure Config where
  /-- `KCODE_SEL`, the kernel code-segment selector (D10). -/
  kcodeSel : Selector
  /-- `TABLE_BASE`, at most 2^64 - 4096 (D11). -/
  tableBaseNat : Fin 18446744073709547521
  /-- `DF_IST` less one: the index is in 1..7 (D12). -/
  dfIstPred : Fin 7
  /-- The vectors with an error code, as a mask, but for 8, 13, 14 and 33, which the spec decides (D30). -/
  errcodeMask : BitVec 256
  /-- `VALID_CODE`, the consumer's valid code addresses (D26). -/
  codeRegions : List CodeRegion
  /-- The stack pointers that entries 1..7 of the stack-switch table name (60_exceptions.md R186). DESIGN CHOICE, safe: log 9. -/
  altStacks : Vector Addr 7
  /-- The bit of the flags register that holds the consumer's interrupt flag (60_exceptions.md R187, R193). DESIGN CHOICE, safe:
  log 10. -/
  interruptBit : Fin 64
deriving DecidableEq, Repr, Inhabited

/-- The configuration of the platform. Nothing can be proved of its value (log 3). -/
opaque Config.platform : Config

/-- The example configuration of R11, "and only examples" (used by tests and witnesses). -/
def Config.sample : Config where
  kcodeSel := 0x0008#16
  tableBaseNat := 0x300000
  dfIstPred := 0
  errcodeMask := 0x60227D00#256
  codeRegions := [⟨0x200000#64, 0x10000⟩]
  altStacks := ⟨#[0x510000#64, 0x520000#64, 0x530000#64, 0x540000#64, 0x550000#64, 0x560000#64, 0x570000#64], rfl⟩
  interruptBit := 9

end Sys2Proof
end

