-- ==== Sys2Proof/Machine/State.lean ====
section
/-! DEFINITION. The state of IDTEL (10_state.md R20-R36), of the consumer as far as the spec describes it
(60_exceptions.md R185-R193), and the model's own two inputs: the issuer's command words and the order of turns. -/

namespace Sys2Proof.Machine

/-- Byte-addressed memory as (address, byte) pairs. An unlisted address holds `⊥` (R22, D14). -/
abbrev Memory := List Host.Cell

/-- The canonical form: addresses strictly rising. No listed entry can equal what an unlisted address reads as, since that is
no value. -/
abbrev Memory.wf (m : Memory) : Prop := m.Pairwise fun x y => x.1 < y.1

/-- The registers the exception stack frame saves and the trap return restores (R185, R189). -/
structure Context where
  /-- The instruction pointer. -/
  rip : BitVec 64
  /-- The code-segment selector. -/
  cs : Selector
  /-- The flags register. -/
  rflags : BitVec 64
  /-- The stack pointer. -/
  rsp : Addr
  /-- The stack-segment selector. -/
  ss : Selector
deriving DecidableEq, Repr

/-- The processor's trap delivery (R8). -/
structure Consumer where
  /-- The registers of the code that runs now. -/
  ctx : Context
  /-- The vectors whose handlers are in service, innermost first (R190, R191). -/
  handlers : List Vec
  /-- The halt after the double-fault handler (R190, R199). -/
  halted : Bool
  /-- The consumer's stack memory, which lies outside the table (R59). -/
  stack : Memory
deriving DecidableEq, Repr

/-- What raises a trap (R193, R195). Any source may raise any vector: log 26. -/
inductive TrapSource where
  /-- The consumer's own execution raises it synchronously. -/
  | exception
  /-- An external interrupt, which the interrupt flag masks. -/
  | external
  /-- Software invokes the gate. -/
  | software
deriving DecidableEq, Repr

/-- What the consumer meets. The error code is an input: the spec gives its presence (R188), not its value. -/
inductive ConsumerEvent where
  /-- The consumer's own execution, outside any handler, brings its registers to `ctx`. -/
  | runs (ctx : Context)
  /-- Trap `v` is raised; `err` is its error code, if it has one. -/
  | trap (source : TrapSource) (v : Vec) (err : BitVec 64)
  /-- The consumer fails to deliver trap `v` for a reason of its own (R191), after the lookup of `v` (log 15); `err` is the error
  code of the double fault. -/
  | deliveryFails (v : Vec) (err : BitVec 64)
  /-- The innermost handler ends: by the trap return (R189), or by the halt of the double-fault handler (R190). -/
  | handlerEnds
deriving DecidableEq, Repr

/-- Whose turn is next (R8; log 1). -/
inductive Turn where
  /-- The block takes the issuer's next command, if there is one. -/
  | block
  /-- The consumer meets an event. -/
  | consumer (e : ConsumerEvent)
  /-- Reset (R200; log 2). -/
  | reset
deriving DecidableEq, Repr

/-- The whole machine. -/
structure State where
  /-- The open parameters (R10), written by nothing (R20). The model's own field: log 3. -/
  cfg : Config
  /-- The table memory, which is `TBL` (R24). Slots are read and written by `readSlot` and `writeSlot`. -/
  mem : Memory
  /-- `DOUT` (R25); `none` is `⊥`. -/
  dout : Option Desc
  /-- `PAYLOAD` (R26); `none` is `⊥`. -/
  payload : Option Payload
  /-- `IDTR` (R27); `none` is `⊥`. -/
  idtr : Option Payload
  /-- `STATUS` (R28). -/
  status : BitVec 32
  /-- `FCAUSE` (R29). -/
  fcause : BitVec 32
  /-- `CI`, the issuer's command index (R30). -/
  ci : Nat
  /-- The issuer's sequence of command words (R14, R20). The model's own field: log 6. -/
  program : List Cmd
  /-- Whose turns come next, first to last; when it is empty the block has the turn. The model's own field: log 1. -/
  agenda : List Turn
  /-- The consumer (R8). -/
  consumer : Consumer
deriving DecidableEq, Repr

/-- What ends the run. The block faults of R171 are not here: they are next states (R170). All are safe: the spec calls each a
fatal outcome or a stuck state, and nothing is proved past it. -/
inductive Fault where
  /-- A trap is delivered before LOAD: raised by the gate lookup (R181). Safe. -/
  | beforeLoad
  /-- The gate does not lie within the limit: raised by the gate lookup (R180). Safe. -/
  | limit
  /-- The slot is `⊥`: raised by the gate lookup (R182). Safe. -/
  | unwritten
  /-- The present bit is 0: raised by the gate lookup (R183). Safe. -/
  | notPresent
  /-- The handler address fails `VALID_CODE`: raised on delivery (R184). Safe. -/
  | badHandler
  /-- The double fault itself cannot be delivered (R191). Safe. -/
  | dfDelivery
  /-- The halted consumer has no step: raised by every turn of the consumer after the halt (R190, R199; U15). Safe. -/
  | halted
  /-- A trap return finds a frame byte that nothing has written (R13: reading `⊥` where a value is required). Safe. -/
  | frameUnwritten
deriving DecidableEq, Repr

/-- What the model gives no meaning. All are safe: the machine stops by name. -/
inductive Refusal where
  /-- An instruction without a meaning; no arm of `exec` answers it. Safe. -/
  | notModelled (mnemonic : String)
  /-- A frame push would write table memory, which R59 rules out: raised on trap entry (log 11). Safe. -/
  | consumerWritesTable
  /-- A gate whose type is neither interrupt gate nor trap gate: raised on trap entry; IDTEL writes no such descriptor
  (R73, R74; log 13). Safe. -/
  | unknownGateType
  /-- A handler's own execution, which has no meaning beyond return and halt (U9): raised by `runs` (log 12). Safe. -/
  | handlerBody
  /-- A handler ends although none is in service: raised by `handlerEnds` (log 12). Safe. -/
  | noHandler
deriving DecidableEq, Repr

/-- The consumer at reset: the spec states none of it (R200). DESIGN CHOICE, unsafe: log 5. -/
def Consumer.reset (c : Config) : Consumer where
  ctx := { rip := 0#64, cs := c.kcodeSel, rflags := 0#64, rsp := 0#64, ss := 0#16 }
  handlers := []
  halted := false
  stack := []

/-- The machine right after reset under configuration `c` (R35, R200). -/
def State.resetWith (c : Config) : State where
  cfg := c
  mem := []
  dout := none
  payload := none
  idtr := none
  status := 0#32
  fcause := 0#32
  ci := 0
  program := []
  agenda := []
  consumer := Consumer.reset c

/-- The machine right after reset (R35, R200), with the platform's configuration. -/
def State.reset : State := State.resetWith Config.platform

end Sys2Proof.Machine
end

