-- ==== Sys2Proof/Machine/Flags.lean ====
section
/-! DEFINITION. The bits of STATUS and FCAUSE, the phase, and the consumer's interrupt flag (10_state.md R28, R29, R31, R33;
60_exceptions.md R171, R187). -/

namespace Sys2Proof.Machine

/-! ### STATUS (R28) -/

/-- `STATUS.ACTIVE`, bit 0. -/
def activeBit (status : BitVec 32) : Bool := status.getLsbD 0

/-- `STATUS.FAULT`, bit 1. -/
def faultBit (status : BitVec 32) : Bool := status.getLsbD 1

/-- `STATUS.ACTIVE <- 1`; the other bits stay. -/
def withActive (status : BitVec 32) : BitVec 32 := status ||| 0x00000001#32

/-- `STATUS.FAULT <- 1`; the other bits stay. -/
def withFault (status : BitVec 32) : BitVec 32 := status ||| 0x00000002#32

/-! ### FCAUSE (R29, R171) -/

/-- The block fault codes (R171). -/
def blockFaultCode : BlockFault → BitVec 4
  | .illegalOp => 1#4
  | .rsvdBits => 2#4
  | .uninitRead => 3#4
  | .writeAfterActivate => 4#4
  | .reactivate => 5#4

/-- `FCAUSE.CODE`, bits 3:0. -/
def causeCode (fcause : BitVec 32) : BitVec 4 := fcause.extractLsb' 0 4

/-- `FCAUSE.CODE <- code`; the reserved bits stay. -/
def withCause (fcause : BitVec 32) (code : BitVec 4) : BitVec 32 :=
  (fcause &&& 0xFFFFFFF0#32) ||| code.setWidth 32

/-! ### Phase (R33) -/

/-- The phases of the block. -/
inductive Phase where
  | populating
  | active
  | faulted
deriving DecidableEq, Repr

/-- The phase is a function of STATUS (R33). -/
def phaseOf (status : BitVec 32) : Phase :=
  if faultBit status then .faulted else if activeBit status then .active else .populating

/-! ### The consumer's interrupt flag (R187, R193; its place in the flags register: log 10) -/

/-- External interrupts are delivered only while the flag is 1. -/
def interruptsEnabled (c : Config) (rflags : BitVec 64) : Bool := rflags.getLsbD c.interruptBit.val

/-- The flags register with the interrupt flag 0; the other flags stay (log 9). -/
def maskInterrupts (c : Config) (rflags : BitVec 64) : BitVec 64 :=
  rflags &&& ~~~(1#64 <<< c.interruptBit.val)

end Sys2Proof.Machine
end

