-- ==== Sys2Proof/Machine/Gate.lean ====
section
/-! DEFINITION. The Descriptor Encoder: the gate descriptor, its encoder and decoder, and the control-register payload
(30_encoding.md R70-R76; 40_encoder.md R100, R101). -/

namespace Sys2Proof.Machine

/-- `ATTR = 1 ++ 00 ++ 0 ++ 1110`: present, ring 0, 64-bit interrupt gate (R73). -/
def attrByte : BitVec 8 := 1#1 ++ 0#2 ++ 0#1 ++ 0xE#4

/-- `encode(h, ist, sel)` (R100). -/
def encodeGate (h : Addr) (ist : Ist) (sel : Selector) : Desc :=
  0#32 ++ h.extractLsb' 32 32 ++ h.extractLsb' 16 16 ++ attrByte ++ 0#5 ++ ist ++ sel ++ h.extractLsb' 0 16

/-- The fields `decode` reads from a descriptor (R101). -/
structure Gate where
  offset : Addr
  sel : Selector
  ist : Ist
  rsvIst : BitVec 5
  attr : BitVec 8
  gateType : BitVec 4
  dpl : BitVec 2
  present : BitVec 1
  /-- Not to be relied upon (R75): no operation of the model reads it. -/
  rsvHi : BitVec 32
deriving DecidableEq, Repr

/-- `decode(d)` (R101). -/
def decodeGate (d : Desc) : Gate where
  offset := d.extractLsb' 64 32 ++ d.extractLsb' 48 16 ++ d.extractLsb' 0 16
  sel := d.extractLsb' 16 16
  ist := d.extractLsb' 32 3
  rsvIst := d.extractLsb' 35 5
  attr := d.extractLsb' 40 8
  gateType := d.extractLsb' 40 4
  dpl := d.extractLsb' 45 2
  present := d.extractLsb' 47 1
  rsvHi := d.extractLsb' 96 32

/-- `NPDESC`, the not-present descriptor (R74). -/
def npDesc : Desc := 0x000000000000000000000E0000000000#128

/-- The limit: `SLOTS * DESC_BYTES - 1` (R151). -/
def tableLimit : Nat := 256 * 16 - 1

/-- The payload `base ++ limit[15:0]` (R76, R150). -/
def payloadOf (base : Addr) : Payload := base ++ BitVec.ofNat 16 tableLimit

/-- `LIMIT_FIELD`, bits 15:0 (R76). -/
def limitField (p : Payload) : BitVec 16 := p.extractLsb' 0 16

/-- `BASE_FIELD`, bits 79:16 (R76). -/
def baseField (p : Payload) : Addr := p.extractLsb' 16 64

end Sys2Proof.Machine
end

