-- ==== Sys2Proof/Machine/Memory.lean ====
section
/-! DEFINITION. Byte-addressed memory: `MemRead` and `MemWrite` in little-endian order (00_scope.md R12, R13;
20_memory.md R51). Addresses are modulo 2^64 (R12). -/

namespace Sys2Proof.Machine

/-- The byte at an address; `none` is `⊥`. -/
def readByte : Memory → Nat → Option Byte
  | [], _ => none
  | (k, b) :: m, a => if k = a then some b else readByte m a

/-- The `n` bytes from `a` up, lowest address first; `none` when one of them is `⊥`. -/
def readBytes (m : Memory) : Addr → Nat → Option (List Byte)
  | _, 0 => some []
  | a, n + 1 =>
    match readByte m a.toNat with
    | none => none
    | some b =>
      match readBytes m (a + 1#64) n with
      | none => none
      | some bs => some (b :: bs)

/-- The cells of bytes at rising addresses from `a`. -/
def cellsFrom : Nat → List Byte → Memory
  | _, [] => []
  | a, b :: bs => (a, b) :: cellsFrom (a + 1) bs

/-- Memory with a run of bytes written from `a` up, in canonical form. The run does not wrap. -/
def writeRun (m : Memory) (a : Nat) (bs : List Byte) : Memory :=
  (m.filter fun e => decide (e.1 < a)) ++ cellsFrom a bs ++ (m.filter fun e => decide (a + bs.length ≤ e.1))

/-- Memory with bytes written from `a` up, the list's first at the lowest address; past the top of the address space they go on
at address 0 (R12). -/
def writeBytes (m : Memory) (a : Addr) (bs : List Byte) : Memory :=
  writeRun (writeRun m 0 (bs.drop (2 ^ 64 - a.toNat))) a.toNat (bs.take (2 ^ 64 - a.toNat))

/-- The `n` bytes of a value, least significant first (R51). -/
def bytesOf : Nat → Nat → List Byte
  | 0, _ => []
  | n + 1, v => BitVec.ofNat 8 v :: bytesOf n (v / 256)

/-- The value of bytes, least significant first (R51). -/
def ofBytes : List Byte → Nat
  | [] => 0
  | b :: bs => b.toNat + 256 * ofBytes bs

/-- `MemRead(addr, n)` (R13). -/
def memRead (m : Memory) (a : Addr) (n : Nat) : Option Nat := (readBytes m a n).map ofBytes

/-- `MemWrite(addr, n, v)` (R13). -/
def memWrite (m : Memory) (a : Addr) (n v : Nat) : Memory := writeBytes m a (bytesOf n v)

/-- `n` copies of bytes. -/
def repeatBytes : Nat → List Byte → List Byte
  | 0, _ => []
  | n + 1, bs => bs ++ repeatBytes n bs

/-- `n` 64-bit words at ascending addresses from `a`. -/
def readWords (m : Memory) : Addr → Nat → Option (List (BitVec 64))
  | _, 0 => some []
  | a, n + 1 =>
    match memRead m a 8 with
    | none => none
    | some w =>
      match readWords m (a + 8#64) n with
      | none => none
      | some ws => some (BitVec.ofNat 64 w :: ws)

/-- The bytes of 64-bit words at ascending addresses. -/
def wordBytes : List (BitVec 64) → List Byte
  | [] => []
  | w :: ws => bytesOf 8 w.toNat ++ wordBytes ws

/-- Memory with 64-bit words written at ascending addresses from `a`. -/
def writeWords (m : Memory) (a : Addr) (ws : List (BitVec 64)) : Memory := writeBytes m a (wordBytes ws)

end Sys2Proof.Machine
end

