-- ==== Sys2Proof/Machine/Operands.lean ====
section
/-! DEFINITION. What operands and open parameters denote: the address of a slot, the table's range, the consumer's predicates
(00_scope.md R10; 20_memory.md R52, R53; 60_exceptions.md R184, R186, R188, R195). -/

namespace Sys2Proof.Machine

/-- `TABLE_BASE` (R10). -/
def tableBase (c : Config) : Addr := BitVec.ofNat 64 c.tableBaseNat.val

/-- The address of slot `v`: `base + 16*v` (R52). -/
def slotAddrAt (base : Addr) (v : Vec) : Addr := base + 16#64 * v.setWidth 64

/-- The address of slot `v` of the table: `TABLE_BASE + 16*v` (R52). -/
def slotAddr (c : Config) (v : Vec) : Addr := slotAddrAt (tableBase c) v

/-- An address is one of the table's 4096 (R53). -/
def inTable (c : Config) (a : Addr) : Bool := decide ((a - tableBase c).toNat < 4096)

/-- One of the `n` addresses from `a` up is the table's. -/
def touchesTable (c : Config) (a : Addr) (n : Nat) : Bool :=
  (List.range n).any fun k => inTable c (a + BitVec.ofNat 64 k)

/-- `DF_IST`, in 1..7 (R10). -/
def dfIst (c : Config) : Ist := BitVec.ofNat 3 (c.dfIstPred.val + 1)

/-- An address lies in a run of code addresses. -/
def CodeRegion.contains (r : CodeRegion) (a : Addr) : Bool := decide ((a - r.base).toNat < r.size)

/-- `VALID_CODE(addr)` (R184). -/
def validCode (c : Config) (a : Addr) : Bool := c.codeRegions.any fun r => CodeRegion.contains r a

/-- `v` is in `ERRCODE_VECTORS`, which contains 8, 13 and 14 and not 33 (R188). -/
def hasErrorCode (c : Config) (v : Vec) : Bool :=
  if v = 8#8 ∨ v = 13#8 ∨ v = 14#8 then true
  else if v = 33#8 then false
  else c.errcodeMask.getLsbD v.toNat

/-- The stack pointer on which the frame is pushed: index 0 means no stack switch, 1..7 an entry of the stack-switch table
(R186). -/
def stackTop (c : Config) (ist : Ist) (rsp : Addr) : Addr :=
  match ist.toNat with
  | 0 => rsp
  | n + 1 => c.altStacks.toList.getD n rsp

/-- The interrupted code is ring 0 when its segment is the kernel code segment `KCODE_SEL` (R195, R203). DEDUCED: log 14. -/
def ringZero (c : Config) (ctx : Context) : Bool := decide (ctx.cs = c.kcodeSel)

/-- Unprivileged software may invoke a gate directly only where the gate's ring is 3. For the `DPL = 0` of every descriptor
IDTEL writes it may not (R195). PRESUMED for the other rings: log 14. -/
def mayInvoke (c : Config) (ctx : Context) (dpl : BitVec 2) : Bool := ringZero c ctx || decide (dpl = 3#2)

end Sys2Proof.Machine
end

