-- ==== Sys2Proof/Machine/Ops.lean ====
section
/-! DEFINITION. The named operations the meanings are made of: writing a register, reading and writing a slot, taking a command,
raising a block fault (60_exceptions.md R170), entering a trap handler and returning from it (R185-R190), reset (R200). -/

namespace Sys2Proof.Machine

/-! ### Registers -/

def State.setMem (s : State) (m : Memory) : State := { s with mem := m }
def State.setDout (s : State) (d : Option Desc) : State := { s with dout := d }
def State.setPayload (s : State) (p : Option Payload) : State := { s with payload := p }
def State.setIdtr (s : State) (p : Option Payload) : State := { s with idtr := p }
def State.setStatus (s : State) (v : BitVec 32) : State := { s with status := v }
def State.setFcause (s : State) (v : BitVec 32) : State := { s with fcause := v }
def State.setCi (s : State) (n : Nat) : State := { s with ci := n }
def State.setProgram (s : State) (p : List Cmd) : State := { s with program := p }
def State.setAgenda (s : State) (a : List Turn) : State := { s with agenda := a }
def State.setConsumer (s : State) (c : Consumer) : State := { s with consumer := c }

/-- `CI <- CI + 1` (R30). -/
def advance (s : State) : State := s.setCi (s.ci + 1)

/-! ### Slots (R23, R24, R55) -/

/-- `TBL[v]` read at a base address: 16 bytes, or `⊥`. -/
def readSlotAt (m : Memory) (base : Addr) (v : Vec) : Option Desc :=
  (memRead m (slotAddrAt base v) 16).map (BitVec.ofNat 128)

/-- `TBL[v]`. -/
def readSlot (c : Config) (m : Memory) (v : Vec) : Option Desc := readSlotAt m (tableBase c) v

/-- `TBL[v] <- d`: one atomic 16-byte write (R56, R120). -/
def writeSlot (c : Config) (m : Memory) (v : Vec) (d : Desc) : Memory := memWrite m (slotAddr c v) 16 d.toNat

/-- `TBL[v] <- NPDESC` for every `v`: one atomic write of all 256 slots (R55, R56, R125). -/
def clearTable (c : Config) (m : Memory) : Memory :=
  writeBytes m (tableBase c) (repeatBytes 256 (bytesOf 16 npDesc.toNat))

/-! ### Commands and block faults (R170) -/

/-- `raise BlockFault(f)`: the command has no effect other than `FAULT <- 1`, `CODE <- code`, `CI <- CI + 1` (R170). -/
def raiseBlockFault (f : BlockFault) (s : State) : State :=
  advance ((s.setStatus (withFault s.status)).setFcause (withCause s.fcause (blockFaultCode f)))

/-- A command is "taken only when STATUS.FAULT = 0"; otherwise nothing changes (R170). -/
def takeCommand (s : State) (effect : State → State) : Host.Outcome State Fault Refusal :=
  .next (if faultBit s.status then s else effect s)

/-- Reset, "the start of the block's lifetime" (R35, R200): the block's state takes its reset values. The configuration, the
issuer's command words, the order of turns and the consumer's own registers are not the block's and stay. DESIGN CHOICE: log 2. -/
def blockReset (s : State) : State :=
  { State.resetWith s.cfg with program := s.program, agenda := s.agenda, consumer := s.consumer }

/-! ### The consumer's gate lookup (R180) -/

/-- What a gate lookup gives. -/
inductive Lookup where
  | gate (g : Gate)
  | fault (f : Fault)
deriving DecidableEq, Repr

/-- `gate_lookup(v)` (R180-R183). -/
def gateLookup (s : State) (v : Vec) : Lookup :=
  match s.idtr with
  | none => .fault .beforeLoad
  | some p =>
    if 16 * v.toNat + 15 > (limitField p).toNat then .fault .limit
    else
      match readSlotAt s.mem (baseField p) v with
      | none => .fault .unwritten
      | some d => if (decodeGate d).present = 0#1 then .fault .notPresent else .gate (decodeGate d)

/-- The gate lookup, and then the check of the handler address (R184). -/
def resolveGate (s : State) (v : Vec) : Lookup :=
  match gateLookup s v with
  | .fault f => .fault f
  | .gate g => if validCode s.cfg g.offset then .gate g else .fault .badHandler

/-! ### Trap entry (R185-R188) -/

/-- The exception stack frame, lowest address first: instruction pointer, code segment, flags, stack pointer, stack segment, each
widened to 64 bits (R185). -/
def frameWords (ctx : Context) : List (BitVec 64) :=
  [ctx.rip, ctx.cs.setWidth 64, ctx.rflags, ctx.rsp, ctx.ss.setWidth 64]

/-- What entering the handler of `v` pushes, lowest address first: the error code, where `v` has one (R188), below the frame. -/
def pushedWords (c : Config) (v : Vec) (err : BitVec 64) (ctx : Context) : List (BitVec 64) :=
  if hasErrorCode c v then err :: frameWords ctx else frameWords ctx

/-- The flags on entry: an interrupt gate (type 0xE) clears the interrupt flag, a trap gate (0xF) does not (R187; C1); no other
type has a meaning (log 13). -/
def entryFlags (c : Config) (g : Gate) (rflags : BitVec 64) : Option (BitVec 64) :=
  if g.gateType = 0xE#4 then some (maskInterrupts c rflags)
  else if g.gateType = 0xF#4 then some rflags
  else none

/-- The address of the lowest word that entering the handler of `v` through `g` pushes, which is the new stack pointer (R185,
R186). -/
def entryStack (c : Config) (v : Vec) (g : Gate) (ctx : Context) : Addr :=
  stackTop c g.ist ctx.rsp - (if hasErrorCode c v then 48#64 else 40#64)

/-- The consumer enters the handler of trap `v` through gate `g` (R185-R188). -/
def enterHandler (v : Vec) (err : BitVec 64) (g : Gate) (s : State) : Host.Outcome State Fault Refusal :=
  let ctx := s.consumer.ctx
  let words := pushedWords s.cfg v err ctx
  let top := entryStack s.cfg v g ctx
  match entryFlags s.cfg g ctx.rflags with
  | none => .refused .unknownGateType
  | some flags =>
    if touchesTable s.cfg top (8 * words.length) then .refused .consumerWritesTable
    else
      .next (s.setConsumer
        { s.consumer with
          ctx := { rip := g.offset, cs := g.sel, rflags := flags, rsp := top, ss := ctx.ss }
          handlers := v :: s.consumer.handlers
          stack := writeWords s.consumer.stack top words })

/-- Trap `v` is delivered: gate lookup, handler check, entry (R180-R185). -/
def deliver (v : Vec) (err : BitVec 64) (s : State) : Host.Outcome State Fault Refusal :=
  match resolveGate s v with
  | .fault f => .fault f
  | .gate g => enterHandler v err g s

/-- The double fault that a failed delivery raises is delivered; when that fails too it is `DF_DELIVERY` (R191). The failed trap
leaves nothing behind: no word of its frame is written, and the double fault's frame saves the interrupted context as it stands.
DESIGN CHOICE, unsafe: log 27. -/
def deliverDoubleFault (err : BitVec 64) (s : State) : Host.Outcome State Fault Refusal :=
  match resolveGate s 8#8 with
  | .fault _ => .fault .dfDelivery
  | .gate g => enterHandler 8#8 err g s

/-! ### Trap return and halt (R189, R190) -/

/-- The registers a frame holds. -/
def contextOfFrame : List (BitVec 64) → Option Context
  | [rip, cs, rflags, rsp, ss] => some { rip, cs := cs.setWidth 16, rflags, rsp, ss := ss.setWidth 16 }
  | _ => none

/-- Where the frame lies when the handler of `v` ends: above the error code, which the handler has discarded (R189). -/
def frameAddr (c : Config) (v : Vec) (rsp : Addr) : Addr := if hasErrorCode c v then rsp + 8#64 else rsp

/-- The trap return from the handler of `v`: the five registers are restored from the frame (R189). -/
def returnFromTrap (v : Vec) (outer : List Vec) (s : State) : Host.Outcome State Fault Refusal :=
  match readWords s.consumer.stack (frameAddr s.cfg v s.consumer.ctx.rsp) 5 with
  | none => .fault .frameUnwritten
  | some words =>
    match contextOfFrame words with
    | none => .fault .frameUnwritten
    | some ctx => .next (s.setConsumer { s.consumer with ctx := ctx, handlers := outer })

/-- The halt that ends the double-fault handler (R190). -/
def haltConsumer (s : State) : State := s.setConsumer { s.consumer with halted := true }

end Sys2Proof.Machine
end

