-- ==== Sys2Proof/Machine/Encoder.lean ====
section
/-! DEFINITION. The Descriptor Encoder's command (40_encoder.md R105). -/

namespace Sys2Proof.Machine

/-- `ENC`: `DOUT <- encode(handler, ist, KCODE_SEL)`, legal in phases POPULATING and ACTIVE (R105). -/
def execEnc (ist : Ist) (handler : Addr) (s : State) : Host.Outcome State Fault Refusal :=
  takeCommand s fun s => advance (s.setDout (some (encodeGate handler ist s.cfg.kcodeSel)))

end Sys2Proof.Machine
end

