-- ==== Sys2Proof/Machine/Loader.lean ====
section
/-! DEFINITION. The Loader's command (42_loader.md R150-R155). -/

namespace Sys2Proof.Machine

/-- The payload is computed into `PAYLOAD` and consumed by `IDTR` inside the one step (R26, R150). -/
def activate (s : State) : State :=
  let loaded := s.setPayload (some (payloadOf (tableBase s.cfg)))
  let driven := (loaded.setIdtr loaded.payload).setStatus (withActive loaded.status)
  driven.setPayload none

/-- `LOAD`: activation; `REACTIVATE` when already active (R150, R152). -/
def execLoad (s : State) : Host.Outcome State Fault Refusal :=
  takeCommand s fun s =>
    if activeBit s.status then raiseBlockFault .reactivate s else advance (activate s)

end Sys2Proof.Machine
end

