-- ==== Sys2Proof/Machine/TableManager.lean ====
section
/-! DEFINITION. The Table Manager's commands (41_table_manager.md R120, R125, R130). -/

namespace Sys2Proof.Machine

/-- `SETGATE`: `TBL[vec] <- encode(handler, ist, KCODE_SEL)`; `WRITE_AFTER_ACTIVATE` when active (R120). -/
def execSetgate (vec : Vec) (ist : Ist) (handler : Addr) (s : State) : Host.Outcome State Fault Refusal :=
  takeCommand s fun s =>
    if activeBit s.status then raiseBlockFault .writeAfterActivate s
    else advance (s.setMem (writeSlot s.cfg s.mem vec (encodeGate handler ist s.cfg.kcodeSel)))

/-- `CLRALL`: `TBL[v] <- NPDESC` for every `v`; `WRITE_AFTER_ACTIVATE` when active (R125). -/
def execClrall (s : State) : Host.Outcome State Fault Refusal :=
  takeCommand s fun s =>
    if activeBit s.status then raiseBlockFault .writeAfterActivate s
    else advance (s.setMem (clearTable s.cfg s.mem))

/-- `RDSLOT`: `DOUT <- TBL[vec]`; `UNINIT_READ` when the slot is `⊥` (R130). -/
def execRdslot (vec : Vec) (s : State) : Host.Outcome State Fault Refusal :=
  takeCommand s fun s =>
    match readSlot s.cfg s.mem vec with
    | none => raiseBlockFault .uninitRead s
    | some d => advance (s.setDout (some d))

end Sys2Proof.Machine
end

