-- ==== Sys2Proof/Machine/Dispatch.lean ====
section
/-! DEFINITION. One arm per command (30_encoding.md R84). -/

namespace Sys2Proof.Machine

def exec (i : Instr) (s : State) : Host.Outcome State Fault Refusal :=
  match i with
  | .enc ist handler => Sys2Proof.Machine.execEnc ist handler s
  | .setgate vec ist handler => Sys2Proof.Machine.execSetgate vec ist handler s
  | .clrall => Sys2Proof.Machine.execClrall s
  | .rdslot vec => Sys2Proof.Machine.execRdslot vec s
  | .load => Sys2Proof.Machine.execLoad s

end Sys2Proof.Machine
end

