-- ==== Sys2Proof/Machine/Block.lean ====
section
/-! DEFINITION. The block's turn: taking the issuer's next command word (10_state.md R30; 30_encoding.md R86;
60_exceptions.md R170, R172), and placing a word there. -/

namespace Sys2Proof.Machine

/-- The issuer's next command word: the one at index `CI` of its sequence (R30). -/
def nextWord (s : State) : Option Cmd := s.program[s.ci]?

/-- The block takes the word `w`: it is decoded before any state is read, and a word that is no command raises the decoder's
block fault (R86). -/
def takeWord (w : Cmd) (s : State) : Host.Outcome State Fault Refusal :=
  match decode w with
  | .command i => exec i s
  | .blockFault f => takeCommand s (raiseBlockFault f)

/-- The block's turn. With no next command it waits (R220; log 7). -/
def blockStep (s : State) : Host.Outcome State Fault Refusal :=
  match nextWord s with
  | none => .next s
  | some w => takeWord w s

/-- The issuer's sequence with the word `w` at index `n`; words that a shorter sequence lacks below `n` are zero. -/
def placeWord (program : List Cmd) (n : Nat) (w : Cmd) : List Cmd :=
  program.take n ++ List.replicate (n - program.length) 0#96 ++ w :: program.drop (n + 1)

/-- The order of turns in which the next turn is the block's. -/
def blockFirst : List Turn → List Turn
  | [] => []
  | .block :: rest => .block :: rest
  | .consumer e :: rest => .block :: .consumer e :: rest
  | .reset :: rest => .block :: .reset :: rest

/-- The state in which the block's next command word is `w`, and the block's turn is next. -/
def placeNext (s : State) (w : Cmd) : State :=
  (s.setProgram (placeWord s.program s.ci w)).setAgenda (blockFirst s.agenda)

end Sys2Proof.Machine
end

