-- ==== Sys2Proof/Machine/Consumer.lean ====
section
/-! DEFINITION. The consumer's turn (60_exceptions.md R180-R195). -/

namespace Sys2Proof.Machine

/-- A synchronous exception is delivered (R185, R191). -/
def takeException (v : Vec) (err : BitVec 64) (s : State) : Host.Outcome State Fault Refusal := deliver v err s

/-- An external interrupt is delivered only while the interrupt flag is 1 (R187, R193). -/
def takeExternal (v : Vec) (err : BitVec 64) (s : State) : Host.Outcome State Fault Refusal :=
  if interruptsEnabled s.cfg s.consumer.ctx.rflags then deliver v err s else .next s

/-- A software-initiated invocation: from unprivileged code it is refused with a general-protection fault, which is trap 13
(R135, R195); `err` is the error code of whichever trap is delivered. -/
def takeSoftware (v : Vec) (err : BitVec 64) (s : State) : Host.Outcome State Fault Refusal :=
  match gateLookup s v with
  | .fault f => .fault f
  | .gate g => if mayInvoke s.cfg s.consumer.ctx g.dpl then deliver v err s else deliver 13#8 err s

/-- Trap `v` is raised by `source`. The spec names 33 as the interrupt and 8, 11 to 14 as synchronous exceptions and is silent on
every other vector (R193); the model lets every source raise every vector. DESIGN CHOICE, safe: log 26. -/
def takeTrap (source : TrapSource) (v : Vec) (err : BitVec 64) (s : State) : Host.Outcome State Fault Refusal :=
  match source with
  | .exception => takeException v err s
  | .external => takeExternal v err s
  | .software => takeSoftware v err s

/-- The consumer fails to deliver trap `v` for a reason of its own. "A failure to deliver a trap raises the double fault"; a
failure to deliver the double fault itself is `DF_DELIVERY` (R191). The lookup of `v` and its handler check come first, and their
own fault ends the run (R180-R184; C4). DEDUCED, the order of the two: log 15. What the failed trap leaves behind: log 27. -/
def failDelivery (v : Vec) (err : BitVec 64) (s : State) : Host.Outcome State Fault Refusal :=
  match resolveGate s v with
  | .fault f => .fault f
  | .gate _ => if v = 8#8 then .fault .dfDelivery else deliverDoubleFault err s

/-- The innermost handler ends: the double-fault handler halts (R190), every other one returns (R189). -/
def endHandler (s : State) : Host.Outcome State Fault Refusal :=
  match s.consumer.handlers with
  | [] => .refused .noHandler
  | v :: outer => if v = 8#8 then .next (haltConsumer s) else returnFromTrap v outer s

/-- The consumer's own execution brings its registers to `ctx`; a handler's own execution has no meaning (U9; log 12). -/
def runCode (ctx : Context) (s : State) : Host.Outcome State Fault Refusal :=
  match s.consumer.handlers with
  | [] => .next (s.setConsumer { s.consumer with ctx := ctx })
  | _ :: _ => .refused .handlerBody

/-- The consumer meets an event; halted, it takes no further step (R190, R199). -/
def consumerStep (e : ConsumerEvent) (s : State) : Host.Outcome State Fault Refusal :=
  if s.consumer.halted then .fault .halted
  else
    match e with
    | .runs ctx => runCode ctx s
    | .trap source v err => takeTrap source v err s
    | .deliveryFails v err => failDelivery v err s
    | .handlerEnds => endHandler s

end Sys2Proof.Machine
end

