-- ==== Sys2Proof/Machine/Step.lean ====
section
/-! DEFINITION. One step: the agent whose turn is next moves (00_scope.md R8; log 1). -/

namespace Sys2Proof.Machine

/-- One step of the machine. When no turn is listed the turn is the block's. -/
def step (s : State) : Host.Outcome State Fault Refusal :=
  match s.agenda with
  | [] => blockStep s
  | .block :: rest => blockStep (s.setAgenda rest)
  | .consumer e :: rest => consumerStep e (s.setAgenda rest)
  | .reset :: rest => .next (blockReset (s.setAgenda rest))

/-- `s` with the table word `w` of `nbits` bits as the command the next step takes. -/
def State.withFetchWord (s : State) (nbits w : Nat) : State := placeNext s (tableWord nbits w)

end Sys2Proof.Machine
end

