-- ==== Sys2Proof/WellFormed.lean ====
section
/-! DEFINITION. Which lines of assembler source an assembler accepts (30_encoding.md R89). A term of `Instr` needs no check:
its fields have the widths of the command word (30_encoding.md R81; 92_eei_decisions.md D13). -/

namespace Sys2Proof

/-- A handler address is in 0..2^64-1 (R89). -/
def handlerInRange (h : Nat) : Bool := decide (h < 2 ^ 64)

/-- An alternate-stack index is in 0..7 (R89). -/
def istInRange (i : Nat) : Bool := decide (i < 8)

/-- A vector is in 0..255 (R89). -/
def vecInRange (v : Nat) : Bool := decide (v < 256)

/-- "An assembler refuses `ist` outside 0..7, `vec` outside 0..255 and `handler` outside 0..2^64-1" (R89). -/
def Asm.wellFormed : Asm → Bool
  | .enc h i => handlerInRange h && istInRange i
  | .setgate v h i => vecInRange v && handlerInRange h && istInRange i
  | .clrall => true
  | .rdslot v => vecInRange v
  | .load => true
  | .idtPopulate a b c d e f => [a, b, c, d, e, f].all handlerInRange
  | .idtInit a b c d e f => [a, b, c, d, e, f].all handlerInRange

end Sys2Proof
end

