-- ==== Sys2Proof/Machine/Assembler.lean ====
section
/-! DEFINITION. The assembler: command syntax and pseudo-instructions (30_encoding.md R89, R90; 41_table_manager.md R135;
70_reset_and_hazards.md R201). -/

namespace Sys2Proof.Machine

/-- The six SETGATEs of `idt_populate` (R90, R135). -/
def idtPopulate (c : Config) (hDf hNp hSs hGp hPf hApp : Addr) : List Instr :=
  [.setgate 8#8 (dfIst c) hDf, .setgate 11#8 0#3 hNp, .setgate 12#8 0#3 hSs, .setgate 13#8 0#3 hGp, .setgate 14#8 0#3 hPf,
    .setgate 33#8 0#3 hApp]

/-- The boot sequence `idt_init` (R90, R201). -/
def idtInit (c : Config) (hDf hNp hSs hGp hPf hApp : Addr) : List Instr :=
  .clrall :: idtPopulate c hDf hNp hSs hGp hPf hApp ++ [.load]

/-- The commands a source line stands for (R89, R90). -/
def expand (c : Config) : Asm → List Instr
  | .enc h i => [.enc (BitVec.ofNat 3 i) (BitVec.ofNat 64 h)]
  | .setgate v h i => [.setgate (BitVec.ofNat 8 v) (BitVec.ofNat 3 i) (BitVec.ofNat 64 h)]
  | .clrall => [.clrall]
  | .rdslot v => [.rdslot (BitVec.ofNat 8 v)]
  | .load => [.load]
  | .idtPopulate a b d e f g =>
    idtPopulate c (BitVec.ofNat 64 a) (BitVec.ofNat 64 b) (BitVec.ofNat 64 d) (BitVec.ofNat 64 e) (BitVec.ofNat 64 f)
      (BitVec.ofNat 64 g)
  | .idtInit a b d e f g =>
    idtInit c (BitVec.ofNat 64 a) (BitVec.ofNat 64 b) (BitVec.ofNat 64 d) (BitVec.ofNat 64 e) (BitVec.ofNat 64 f)
      (BitVec.ofNat 64 g)

/-- The command words of a source line; none where an operand is out of range (R89). -/
def assemble (c : Config) (line : Asm) : Option (List Cmd) :=
  if line.wellFormed then some ((expand c line).map encode) else none

/-! ### Source text (R89) -/

/-- A decimal digit's value. -/
def decDigit (ch : Char) : Option Nat :=
  if '0' ≤ ch ∧ ch ≤ '9' then some (ch.toNat - '0'.toNat) else none

/-- A hexadecimal digit's value. -/
def hexDigit (ch : Char) : Option Nat :=
  if 'a' ≤ ch ∧ ch ≤ 'f' then some (ch.toNat - 'a'.toNat + 10)
  else if 'A' ≤ ch ∧ ch ≤ 'F' then some (ch.toNat - 'A'.toNat + 10)
  else decDigit ch

/-- The number that digits in a base spell, after `acc`. -/
def digits (base : Nat) (value : Char → Option Nat) (acc : Nat) : List Char → Option Nat
  | [] => some acc
  | ch :: rest =>
    match value ch with
    | none => none
    | some d => digits base value (acc * base + d) rest

/-- A number: "in decimal or in hex with a `0x` prefix" (R89). -/
def number : List Char → Option Nat
  | [] => none
  | ['0', 'x'] => none
  | '0' :: 'x' :: ds => digits 16 hexDigit 0 ds
  | ds => digits 10 decDigit 0 ds

/-- The pieces of a text between separators. -/
def pieces (sep : Char) : List Char → List (List Char)
  | [] => [[]]
  | ch :: rest =>
    match pieces sep rest with
    | [] => [[ch]]
    | w :: ws => if ch = sep then [] :: w :: ws else (ch :: w) :: ws

/-- A text without the spaces around it. -/
def trim (cs : List Char) : List Char :=
  ((cs.dropWhile (· == ' ')).reverse.dropWhile (· == ' ')).reverse

/-- Every entry, or none when one is missing. -/
def allSome : List (Option Nat) → Option (List Nat)
  | [] => some []
  | none :: _ => none
  | some n :: rest =>
    match allSome rest with
    | none => none
    | some ns => some (n :: ns)

/-- The operands of a line, separated by commas (R89). -/
def operands (cs : List Char) : Option (List Nat) :=
  if (trim cs).isEmpty then some [] else allSome ((pieces ',' cs).map fun p => number (trim p))

/-- The line that a mnemonic and its operands make. -/
def asmLine (mnemonic : String) (ops : List Nat) : Option Asm :=
  match ops with
  | [] => if mnemonic = "clrall" then some .clrall else if mnemonic = "load" then some .load else none
  | [v] => if mnemonic = "rdslot" then some (.rdslot v) else none
  | [h, i] => if mnemonic = "enc" then some (.enc h i) else none
  | [v, h, i] => if mnemonic = "setgate" then some (.setgate v h i) else none
  | [a, b, c, d, e, f] =>
    if mnemonic = "idt_populate" then some (.idtPopulate a b c d e f)
    else if mnemonic = "idt_init" then some (.idtInit a b c d e f)
    else none
  | _ => none

/-- One line of source: a mnemonic in lower case, then its operands (R89). -/
def parseLine (text : String) : Option Asm :=
  let line := trim text.toList
  let mnemonic := line.takeWhile (· != ' ')
  match operands (line.dropWhile (· != ' ')) with
  | none => none
  | some ops => asmLine (String.ofList mnemonic) ops

end Sys2Proof.Machine
end

