-- ==== Sys2Proof/Machine/ReadPort.lean ====
section
/-! DEFINITION. The issuer's read port (10_state.md R32). A read has no side effect, so it is a function of the state and no
step. -/

namespace Sys2Proof.Machine

/-- What a read returns. -/
inductive PortRead where
  | bits32 (v : BitVec 32)
  | bits128 (v : BitVec 128)
  | bits80 (v : BitVec 80)
  /-- The register holds `⊥`: a fault of the observation, never zero. -/
  | unwritten
  /-- The number names no register. -/
  | noRegister
deriving DecidableEq, Repr

/-- Reading register number `n` (R32). `TBL` and `PAYLOAD` cannot be read. -/
def readPort (s : State) (n : Nat) : PortRead :=
  match n with
  | 0 => .bits32 s.status
  | 1 => .bits32 s.fcause
  | 2 => match s.dout with
    | none => .unwritten
    | some d => .bits128 d
  | 3 => match s.idtr with
    | none => .unwritten
    | some p => .bits80 p
  | _ + 4 => .noRegister

end Sys2Proof.Machine
end

