-- ==== Sys2Proof/Safety.lean ====
section
/-! DEFINITION. What a well-kept machine is: the invariants at every step boundary (10_state.md R36), and the vocabulary of
claims. -/

namespace Sys2Proof.Machine

/-- What a written slot may hold: `NPDESC`, or an encoded descriptor for the kernel code segment (R36 c). -/
def SlotLegal (c : Config) (d : Desc) : Prop := d = npDesc ∨ ∃ h ist, d = encodeGate h ist c.kcodeSel

/-- The invariants of R36. -/
structure StepInv (s : State) : Prop where
  /-- (a) `PAYLOAD = ⊥`. -/
  payload : s.payload = none
  /-- (b) `IDTR ≠ ⊥` exactly when `STATUS.ACTIVE = 1`. -/
  idtr : s.idtr.isSome = activeBit s.status
  /-- (c) every slot that is not `⊥` is legal. -/
  slots : ∀ v d, readSlot s.cfg s.mem v = some d → SlotLegal s.cfg d
  /-- (d) `FCAUSE.CODE ≠ 0` exactly when `STATUS.FAULT = 1`. -/
  cause : causeCode s.fcause ≠ 0#4 ↔ faultBit s.status = true

/-- The registers keep the form their rules give them: reserved bits are 0 (R28, R29), `CODE` is a code that is raised (R171),
and a driven `IDTR` is the table's payload (R27, R150). -/
structure RegisterInv (s : State) : Prop where
  status : s.status &&& 0xFFFFFFFC#32 = 0#32
  fcause : s.fcause &&& 0xFFFFFFF0#32 = 0#32
  code : (causeCode s.fcause).toNat ≤ 5
  idtr : ∀ p, s.idtr = some p → p = payloadOf (tableBase s.cfg)

/-- Memory keeps its form: canonical, table bytes inside the table (R50), stack bytes outside it (R59), and every slot wholly
written or wholly `⊥` (R55, R56). -/
structure MemoryInv (s : State) : Prop where
  table : Memory.wf s.mem
  stack : Memory.wf s.consumer.stack
  inside : ∀ a, (readByte s.mem a.toNat).isSome → inTable s.cfg a = true
  outside : ∀ a, (readByte s.consumer.stack a.toNat).isSome → inTable s.cfg a = false
  whole : ∀ v, readSlot s.cfg s.mem v = none → ∀ k, k < 16 → readByte s.mem (slotAddr s.cfg v + BitVec.ofNat 64 k).toNat = none

/-- The values that R35 gives for reset. -/
def HasResetValues (s : State) : Prop :=
  (∀ v, readSlot s.cfg s.mem v = none) ∧ s.dout = none ∧ s.payload = none ∧ s.idtr = none ∧ s.status = 0#32 ∧
  s.fcause = 0#32 ∧ s.ci = 0 ∧ phaseOf s.status = .populating

/-- `s` after a block fault with cause `code`, and with no other effect (R170). -/
def blockFaulted (s : State) (code : BitVec 32) : State :=
  { s with status := s.status ||| 2#32, fcause := s.fcause &&& 0xFFFFFFF0#32 ||| code, ci := s.ci + 1 }

/-- The stack pointer on entry to the handler of `v` through a gate with index `ist`: the current stack for index 0, else the
stack of that entry of the stack-switch table, less the five words of the frame and the error code, if there is one (R185,
R186). -/
def entryTop (s : State) (v : Vec) (ist : Ist) : Addr :=
  (if ist = 0#3 then s.consumer.ctx.rsp else s.cfg.altStacks.toList.getD (ist.toNat - 1) 0#64) -
    if hasErrorCode s.cfg v then 48#64 else 40#64

/-- The consumer takes a trap of this source now: an exception always, an external interrupt while the interrupt flag is 1 (R187,
R193), a software invocation from the kernel's code (R195; log 14). -/
def takesTrap (s : State) : TrapSource → Bool
  | .exception => true
  | .external => interruptsEnabled s.cfg s.consumer.ctx.rflags
  | .software => decide (s.consumer.ctx.cs = s.cfg.kcodeSel)

/-- A reset is the next turn. -/
def resetNext (s : State) : Prop := s.agenda.head? = some .reset

/-- The commands run one after another, each as `exec` gives it; the first stop ends the run. -/
def execAll : List Instr → State → Host.Outcome State Fault Refusal
  | [], s => .next s
  | i :: rest, s =>
    match exec i s with
    | .next t => execAll rest t
    | .fault f => .fault f
    | .refused r => .refused r

end Sys2Proof.Machine
end

