-- ==== Sys2Proof/Certificates/Slice0/Obligations.lean ====
section
/-! DEFINITION. The statements about IDTEL, in the order of the spec's files. Each docstring names the rule it formalises. -/

open Sys2Proof Sys2Proof.Machine

/-! ### Command words (30_encoding.md) -/

/-- R80, R84, R85, R89: encoding a command and decoding its word gives the command back, with every operand at every value. -/
def Obligations.DecodeEncodeRoundTrip : Prop := ∀ i : Instr, decode (encode i) = .command i

/-- R85, R86, R88: a word that decodes to a command is that command's word, so no two words mean one command. -/
def Obligations.EncodeDecodeRoundTrip : Prop := ∀ (w : Cmd) (i : Instr), decode w = .command i → encode i = w

/-- R84, R87: the illegal opcodes, and no others, are refused as `ILLEGAL_OP`, whatever the other bits are. -/
def Obligations.IllegalOpcodesRefused : Prop :=
  ∀ w : Cmd, decode w = .blockFault .illegalOp ↔ ((w.extractLsb' 0 4).toNat = 0 ∨ 6 ≤ (w.extractLsb' 0 4).toNat)

/-- R85: "A word with a legal opcode and `w & MBZ(op) ≠ 0` raises the block fault `RSVD_BITS`", and no other word does. -/
def Obligations.ReservedBitsRefused : Prop :=
  ∀ w : Cmd, decode w = .blockFault .rsvdBits ↔
    (w.extractLsb' 0 4 = 0x1#4 ∧ w &&& 0x0000000000000000FFFFFF80#96 ≠ 0#96) ∨
    (w.extractLsb' 0 4 = 0x2#4 ∧ w &&& 0x0000000000000000FFFF0080#96 ≠ 0#96) ∨
    (w.extractLsb' 0 4 = 0x3#4 ∧ w &&& 0xFFFFFFFFFFFFFFFFFFFFFFF0#96 ≠ 0#96) ∨
    (w.extractLsb' 0 4 = 0x4#4 ∧ w &&& 0xFFFFFFFFFFFFFFFFFFFF00F0#96 ≠ 0#96) ∨
    (w.extractLsb' 0 4 = 0x5#4 ∧ w &&& 0xFFFFFFFFFFFFFFFFFFFFFFF0#96 ≠ 0#96)

/-- R81, R86: a word is a command exactly when it matches the opcode table's row of it, and the operands are its fields. -/
def Obligations.OpcodeTableRowsDecode : Prop :=
  ∀ w : Cmd,
    (∀ ist handler, decode w = .command (.enc ist handler) ↔
      w &&& 0x0000000000000000FFFFFF8F#96 = 1#96 ∧ ist = w.extractLsb' 4 3 ∧ handler = w.extractLsb' 32 64) ∧
    (∀ vec ist handler, decode w = .command (.setgate vec ist handler) ↔
      w &&& 0x0000000000000000FFFF008F#96 = 2#96 ∧ vec = w.extractLsb' 8 8 ∧ ist = w.extractLsb' 4 3 ∧
        handler = w.extractLsb' 32 64) ∧
    (decode w = .command .clrall ↔ w &&& 0xFFFFFFFFFFFFFFFFFFFFFFFF#96 = 3#96) ∧
    (∀ vec, decode w = .command (.rdslot vec) ↔
      w &&& 0xFFFFFFFFFFFFFFFFFFFF00FF#96 = 4#96 ∧ vec = w.extractLsb' 8 8) ∧
    (decode w = .command .load ↔ w &&& 0xFFFFFFFFFFFFFFFFFFFFFFFF#96 = 5#96)

/-- R80, R84, R85: words written out from the encoding of each command, and words that are refused. -/
def Obligations.SpecWordsDecode : Prop :=
  decode 0x000000000000100000000011#96 = .command (.enc 1#3 0x1000#64) ∧
  decode 0x000000000020100000000812#96 = .command (.setgate 8#8 1#3 0x201000#64) ∧
  decode 0x000000000000000000000003#96 = .command .clrall ∧
  decode 0x000000000000000000000804#96 = .command (.rdslot 8#8) ∧
  decode 0x000000000000000000000005#96 = .command .load ∧
  decode 0x000000000000000000000000#96 = .blockFault .illegalOp ∧
  decode 0x000000000020100000000892#96 = .blockFault .rsvdBits

/-- R89: the assembler's words and its refusals: `w = (handler << 32) | (vec << 8) | (ist << 4) | op`. -/
def Obligations.AssemblerWords : Prop :=
  ∀ (c : Config) (v h i : Nat),
    assemble c (.enc h i) =
      (if h < 2 ^ 64 ∧ i < 8 then some [BitVec.ofNat 96 (h <<< 32 ||| i <<< 4 ||| 1)] else none) ∧
    assemble c (.setgate v h i) =
      (if v < 256 ∧ h < 2 ^ 64 ∧ i < 8 then some [BitVec.ofNat 96 (h <<< 32 ||| v <<< 8 ||| i <<< 4 ||| 2)] else none) ∧
    assemble c .clrall = some [3#96] ∧
    assemble c (.rdslot v) = (if v < 256 then some [BitVec.ofNat 96 (v <<< 8 ||| 4)] else none) ∧
    assemble c .load = some [5#96]

/-! ### The Descriptor Encoder (40_encoder.md) -/

/-- R102, its formula for every address, index and selector. -/
def Obligations.GateAddressRoundTrip : Prop :=
  ∀ (h : Addr) (ist : Ist) (sel : Selector), (decodeGate (encodeGate h ist sel)).offset = h

/-- R103: the attribute byte, and no other bit outside the address, selector and stack-index fields. -/
def Obligations.GateAttributesFixed : Prop :=
  ∀ (h : Addr) (ist : Ist) (sel : Selector),
    (decodeGate (encodeGate h ist sel)).attr = 0x8E#8 ∧ (decodeGate (encodeGate h ist sel)).present = 1#1 ∧
    (decodeGate (encodeGate h ist sel)).dpl = 0#2 ∧ (decodeGate (encodeGate h ist sel)).gateType = 0xE#4 ∧
    (decodeGate (encodeGate h ist sel)).rsvIst = 0#5 ∧ (encodeGate h ist sel).getLsbD 44 = false ∧
    (decodeGate (encodeGate h ist sel)).rsvHi = 0#32

/-- R104: the index and the selector decode back, and changing the index changes only `d[34:32]`. -/
def Obligations.GateIndexAndSelector : Prop :=
  ∀ (h : Addr) (sel : Selector) (i j : Ist),
    (decodeGate (encodeGate h i sel)).ist = i ∧ (decodeGate (encodeGate h i sel)).sel = sel ∧
    encodeGate h i sel ^^^ encodeGate h j sel = (i ^^^ j).setWidth 128 <<< 32

/-- R70, R100: the value of an encoded descriptor, each field at its bit position. -/
def Obligations.GateLayout : Prop :=
  ∀ (h : Addr) (ist : Ist) (sel : Selector),
    (encodeGate h ist sel).toNat =
      h.toNat % 2 ^ 16 + sel.toNat * 2 ^ 16 + ist.toNat * 2 ^ 32 + 0x8E * 2 ^ 40 + h.toNat / 2 ^ 16 % 2 ^ 16 * 2 ^ 48 +
        h.toNat / 2 ^ 32 * 2 ^ 64

/-- R74: `NPDESC`, and the fields that tell it from every other descriptor. -/
def Obligations.NotPresentDescriptor : Prop :=
  npDesc = 0x000000000000000000000E0000000000#128 ∧
  ∀ d : Desc, d = npDesc ↔
    (decodeGate d).present = 0#1 ∧ (decodeGate d).attr = 0x0E#8 ∧ (decodeGate d).offset = 0#64 ∧ (decodeGate d).sel = 0#16 ∧
    (decodeGate d).ist = 0#3 ∧ (decodeGate d).rsvIst = 0#5 ∧ (decodeGate d).rsvHi = 0#32

/-- R151: the limit is 4095 and fits the 16-bit field with no truncation; R76: the payload's two fields. -/
def Obligations.PayloadFields : Prop :=
  ∀ base : Addr, tableLimit = 4095 ∧ tableLimit < 2 ^ 16 ∧ (limitField (payloadOf base)).toNat = tableLimit ∧
    baseField (payloadOf base) = base ∧ (payloadOf base).toNat = base.toNat * 2 ^ 16 + 4095

/-! ### The table in memory (20_memory.md) -/

/-- R52, R53: slot `v` is the 16 bytes from `TABLE_BASE + 16*v`, all inside the table, and no slot address wraps. -/
def Obligations.SlotAddressesDoNotWrap : Prop :=
  ∀ (c : Config) (v : Vec) (k : Nat), k < 16 →
    (slotAddr c v + BitVec.ofNat 64 k).toNat = c.tableBaseNat.val + 16 * v.toNat + k ∧
    (slotAddr c v + BitVec.ofNat 64 k).toNat < c.tableBaseNat.val + 4096 ∧ c.tableBaseNat.val + 4096 ≤ 2 ^ 64

/-! ### The commands (40_encoder.md R105, 41_table_manager.md, 42_loader.md) -/

/-- R105: ENC completes whenever the block is not faulted, active or not, and writes `DOUT` and `CI` alone. -/
def Obligations.EncWritesDout : Prop :=
  ∀ (s : State) (ist : Ist) (handler : Addr), faultBit s.status = false →
    exec (.enc ist handler) s = .next { s with dout := some (encodeGate handler ist s.cfg.kcodeSel), ci := s.ci + 1 }

/-- R120: SETGATE completes whenever the block is neither faulted nor active; it replaces one slot, keeps every other slot, and
changes nothing else but `CI`. -/
def Obligations.SetgateWritesOneSlot : Prop :=
  ∀ (s : State) (vec : Vec) (ist : Ist) (handler : Addr), faultBit s.status = false → activeBit s.status = false →
    ∃ t, exec (.setgate vec ist handler) s = .next t ∧
      readSlot t.cfg t.mem vec = some (encodeGate handler ist s.cfg.kcodeSel) ∧
      (∀ w, w ≠ vec → readSlot t.cfg t.mem w = readSlot s.cfg s.mem w) ∧ t = { s with mem := t.mem, ci := s.ci + 1 }

/-- R51, R52, R120: byte `k` of the slot SETGATE writes holds bits `8k+7` to `8k` of the descriptor, and every byte of memory
outside the 16 bytes at `slotAddr` stays. -/
def Obligations.SetgateStoresLittleEndian : Prop :=
  ∀ (s : State) (vec : Vec) (ist : Ist) (handler : Addr), faultBit s.status = false → activeBit s.status = false →
    ∃ t, exec (.setgate vec ist handler) s = .next t ∧
      (∀ k, k < 16 → readByte t.mem (slotAddr s.cfg vec + BitVec.ofNat 64 k).toNat =
        some ((encodeGate handler ist s.cfg.kcodeSel).extractLsb' (8 * k) 8)) ∧
      ∀ a : Nat, (∀ k, k < 16 → a ≠ (slotAddr s.cfg vec + BitVec.ofNat 64 k).toNat) →
        readByte t.mem a = readByte s.mem a

/-- R125: CLRALL completes whenever the block is neither faulted nor active; every slot becomes `NPDESC`, every byte outside the
table's 4096 stays, and nothing else changes but `CI`. -/
def Obligations.ClrallClearsEverySlot : Prop :=
  ∀ s : State, faultBit s.status = false → activeBit s.status = false →
    ∃ t, exec .clrall s = .next t ∧ (∀ v, readSlot t.cfg t.mem v = some npDesc) ∧
      (∀ a : Nat, (∀ v k, k < 16 → a ≠ (slotAddr s.cfg v + BitVec.ofNat 64 k).toNat) → readByte t.mem a = readByte s.mem a) ∧
      t = { s with mem := t.mem, ci := s.ci + 1 }

/-- R130: RDSLOT of a written slot completes whenever the block is not faulted, active or not, and writes `DOUT` and `CI`
alone. -/
def Obligations.RdslotCopiesSlot : Prop :=
  ∀ (s : State) (vec : Vec) (d : Desc), faultBit s.status = false → readSlot s.cfg s.mem vec = some d →
    exec (.rdslot vec) s = .next { s with dout := some d, ci := s.ci + 1 }

/-- R150: LOAD completes whenever the block is neither faulted nor active, whatever the table holds; it drives `IDTR` with the
limit 0x0FFF and `TABLE_BASE`, sets `ACTIVE`, leaves `PAYLOAD = ⊥`, and changes nothing else but `CI`. -/
def Obligations.LoadActivates : Prop :=
  ∀ s : State, faultBit s.status = false → activeBit s.status = false →
    exec .load s = .next { s with
      idtr := some (BitVec.ofNat 80 (s.cfg.tableBaseNat.val * 2 ^ 16 + 0x0FFF)), status := s.status ||| 1#32,
      payload := none, ci := s.ci + 1 }

/-- R170, R171, R213: "SETGATE and CLRALL after LOAD fault with `WRITE_AFTER_ACTIVATE`" (code 4) and change nothing else. -/
def Obligations.NoWriteAfterActivate : Prop :=
  ∀ (s : State) (vec : Vec) (ist : Ist) (handler : Addr), faultBit s.status = false → activeBit s.status = true →
    exec (.setgate vec ist handler) s = .next (blockFaulted s 4#32) ∧ exec .clrall s = .next (blockFaulted s 4#32)

/-- R130, R170, R171: RDSLOT of a slot holding `⊥` raises `UNINIT_READ` (code 3) in every phase but FAULTED, and `DOUT` stays. -/
def Obligations.UnwrittenSlotReadFaults : Prop :=
  ∀ (s : State) (vec : Vec), faultBit s.status = false → readSlot s.cfg s.mem vec = none →
    exec (.rdslot vec) s = .next (blockFaulted s 3#32)

/-- R152: a LOAD leaves the block active or faulted, and "A second LOAD faults with `REACTIVATE`" (code 5): every LOAD of an
active block, with no other effect, so `IDTR` stays. -/
def Obligations.SecondLoadFaults : Prop :=
  (∀ s t : State, exec .load s = .next t → activeBit t.status = true ∨ faultBit t.status = true) ∧
  ∀ s : State, faultBit s.status = false → activeBit s.status = true → exec .load s = .next (blockFaulted s 5#32)

/-! ### Block faults (60_exceptions.md R170-R172) -/

/-- R170: a command that raises a block fault has no other effect: `FAULT <- 1`, `CODE <- code`, `CI <- CI + 1`, with a code that
R171 gives that command. -/
def Obligations.BlockFaultsArePrecise : Prop :=
  ∀ (i : Instr) (s t : State), exec i s = .next t → faultBit s.status = false → faultBit t.status = true →
    ∃ code : BitVec 4,
      (match i with
        | .enc _ _ => False
        | .setgate _ _ _ => code = 4#4
        | .clrall => code = 4#4
        | .rdslot _ => code = 3#4
        | .load => code = 5#4) ∧
      t = blockFaulted s (code.setWidth 32)

/-- R170: a faulted block takes no command, whatever the word: every command, and every turn of the block, leaves all state as
it was (the order of turns moves on). -/
def Obligations.FaultedBlockTakesNoCommand : Prop :=
  ∀ s : State, faultBit s.status = true →
    (∀ i, exec i s = .next s) ∧ (s.agenda = [] → step s = .next s) ∧
    ∀ rest, s.agenda = .block :: rest → step s = .next { s with agenda := rest }

/-- R172: `ILLEGAL_OP` comes before `RSVD_BITS`, and both before the command's state check, which no hypothesis here rules out. -/
def Obligations.DecodeFaultsComeFirst : Prop :=
  ∀ (s : State) (w : Cmd), s.agenda = [] → faultBit s.status = false → s.program[s.ci]? = some w →
    ((w.extractLsb' 0 4).toNat = 0 ∨ 6 ≤ (w.extractLsb' 0 4).toNat → step s = .next (blockFaulted s 1#32)) ∧
    (decode w = .blockFault .rsvdBits → step s = .next (blockFaulted s 2#32))

/-! ### Steps (00_scope.md R8, 10_state.md R30; logs 1, 6, 7) -/

/-- R30, R86: when the block has the turn and the word at `CI` decodes to a command, the step is that command, with the block's
turn taken off the order of turns. -/
def Obligations.StepRunsDecodedCommand : Prop :=
  ∀ (s : State) (w : Cmd) (i : Instr), s.program[s.ci]? = some w → decode w = .command i →
    (s.agenda = [] → step s = exec i s) ∧
    ∀ rest, s.agenda = .block :: rest → step s = exec i { s with agenda := rest }

/-- The model's choice (log 7): with no command at `CI` the block waits and nothing changes. -/
def Obligations.BlockWaitsForIssuer : Prop :=
  ∀ s : State, s.program[s.ci]? = none →
    (s.agenda = [] → step s = .next s) ∧ ∀ rest, s.agenda = .block :: rest → step s = .next { s with agenda := rest }

/-- The model's own placing of a word (log 6): the next step runs the command placed, on a state that differs from `s` in the
issuer's words and the order of turns alone. -/
def Obligations.PlacedWordRunsNext : Prop :=
  ∀ (s : State) (nbits w : Nat) (i : Instr), decode (tableWord nbits w) = .command i →
    ∃ program agenda, program[s.ci]? = some (tableWord nbits w) ∧ (∀ n, n < s.ci → n < s.program.length →
      program[n]? = s.program[n]?) ∧
      step (s.withFetchWord nbits w) = exec i { s with program := program, agenda := agenda }

/-- R30: `CI` is 0 at reset; a command the block takes, even one that faults, advances it by exactly 1; no command otherwise
changes it; a faulted block leaves it. -/
def Obligations.CommandIndexAdvancesByOne : Prop :=
  (∀ c, (State.resetWith c).ci = 0) ∧
  (∀ (s : State) (w : Cmd), faultBit s.status = false → s.program[s.ci]? = some w →
    ∃ t, blockStep s = .next t ∧ t.ci = s.ci + 1) ∧
  (∀ s t : State, faultBit s.status = true → blockStep s = .next t → t.ci = s.ci) ∧
  ∀ (i : Instr) (s t : State), exec i s = .next t → t.ci = if faultBit s.status then s.ci else s.ci + 1

/-- R61, R8: a command changes nothing of the consumer, of the configuration or of the issuer's words. -/
def Obligations.CommandsLeaveConsumerAlone : Prop :=
  ∀ (i : Instr) (s t : State), exec i s = .next t →
    t.consumer = s.consumer ∧ t.cfg = s.cfg ∧ t.program = s.program ∧ t.agenda = s.agenda

/-- R57, R59: the consumer reads the table and changes no state of the block. -/
def Obligations.ConsumerLeavesBlockAlone : Prop :=
  ∀ (e : ConsumerEvent) (s t : State), consumerStep e s = .next t → t = { s with consumer := t.consumer }

/-- R20: the configuration is "fixed for the whole run, read by the rules, written by nothing". -/
def Obligations.ConfigurationNeverChanges : Prop := ∀ s t : State, step s = .next t → t.cfg = s.cfg

/-! ### Reset and invariants (10_state.md R33, R35, R36) -/

/-- R35: every value that the spec gives for reset, on the platform and under every configuration. -/
def Obligations.ResetValues : Prop := HasResetValues State.reset ∧ ∀ c : Config, HasResetValues (State.resetWith c)

/-- The model's choice of what a reset keeps (log 2): the block's state takes the values of R35, the rest stays. -/
def Obligations.ResetTurnResetsBlock : Prop :=
  ∀ (s : State) (rest : List Turn), s.agenda = .reset :: rest →
    step s = .next { s with
      mem := [], dout := none, payload := none, idtr := none, status := 0#32, fcause := 0#32, ci := 0, agenda := rest }

/-- R36 at the first step boundary, under every configuration. -/
def Obligations.ResetMeetsStepInv : Prop := (∀ c, StepInv (State.resetWith c)) ∧ StepInv State.reset

/-- R36 from step boundary to step boundary: from every state that meets it, whatever the step. -/
def Obligations.StepKeepsStepInv : Prop := ∀ s t : State, StepInv s → step s = .next t → StepInv t

/-- R27, R28, R29, R171 at reset: the registers keep their form; memory keeps its form. -/
def Obligations.ResetMeetsFormInvs : Prop := ∀ c, RegisterInv (State.resetWith c) ∧ MemoryInv (State.resetWith c)

/-- R27, R28, R29, R171: reserved bits read 0, `CODE` is a code that is raised, and a driven `IDTR` is the table's payload. -/
def Obligations.StepKeepsRegisterInv : Prop := ∀ s t : State, RegisterInv s → step s = .next t → RegisterInv t

/-- R50, R55, R56, R59: memory stays canonical, the block writes inside the table only, the consumer outside it only, and every
slot is wholly written or wholly `⊥`. -/
def Obligations.StepKeepsMemoryInv : Prop := ∀ s t : State, MemoryInv s → step s = .next t → MemoryInv t

/-- R33: the phase is a function of STATUS, `POPULATING` at reset; the only transitions are POPULATING to ACTIVE, which LOAD alone
makes, and to FAULTED from either, which a block fault alone makes; FAULTED is left only by reset. -/
def Obligations.PhaseTransitions : Prop :=
  (∀ s : State, phaseOf s.status =
    if s.status.getLsbD 1 then .faulted else if s.status.getLsbD 0 then .active else .populating) ∧
  (∀ c, phaseOf (State.resetWith c).status = .populating) ∧
  ∀ s t : State, ¬ resetNext s → step s = .next t →
    phaseOf t.status = phaseOf s.status ∨
    (phaseOf s.status = .populating ∧ phaseOf t.status = .active ∧
      (s.program[s.ci]?).map decode = some (.command .load)) ∨
    (phaseOf s.status ≠ .faulted ∧ phaseOf t.status = .faulted ∧
      ∃ code ∈ [1#32, 2#32, 3#32, 4#32, 5#32], t = blockFaulted { s with agenda := s.agenda.tail } code)

/-- R57, R62, R154, R213: once active, the table, `IDTR` and `ACTIVE` stay until reset, whatever steps are taken. -/
def Obligations.ActiveTableNeverChanges : Prop :=
  ∀ s t : State, activeBit s.status = true → ¬ resetNext s → step s = .next t →
    t.mem = s.mem ∧ t.idtr = s.idtr ∧ activeBit t.status = true

/-- R29, R170: after a block fault every register, the table and `CI` stay until reset, whatever steps are taken. -/
def Obligations.FaultedStateSticks : Prop :=
  ∀ s t : State, faultBit s.status = true → ¬ resetNext s → step s = .next t →
    t.status = s.status ∧ t.fcause = s.fcause ∧ t.ci = s.ci ∧ t.mem = s.mem ∧ t.dout = s.dout ∧ t.idtr = s.idtr ∧
    t.payload = s.payload

/-- R32: the read port's numbers, and `⊥` and every other number returning no value. -/
def Obligations.ReadPortRegisters : Prop :=
  ∀ s : State, readPort s 0 = .bits32 s.status ∧ readPort s 1 = .bits32 s.fcause ∧
    (∀ d, s.dout = some d → readPort s 2 = .bits128 d) ∧ (s.dout = none → readPort s 2 = .unwritten) ∧
    (∀ p, s.idtr = some p → readPort s 3 = .bits80 p) ∧ (s.idtr = none → readPort s 3 = .unwritten) ∧
    ∀ n, 4 ≤ n → readPort s n = .noRegister

/-! ### The consumer (60_exceptions.md R180-R195) -/

/-- R180, R182, R183: after LOAD, in every state that meets the invariants, the lookup of any vector reads that vector's slot,
and the limit check never fails. -/
def Obligations.LookupReadsTheSlot : Prop :=
  ∀ (s : State) (v : Vec), StepInv s → RegisterInv s → activeBit s.status = true →
    gateLookup s v =
      match readSlot s.cfg s.mem v with
      | none => .fault .unwritten
      | some d => if d.getLsbD 47 then .gate (decodeGate d) else .fault .notPresent

/-- R180, R181, R202, R212: a trap delivered before LOAD is the consumer fault `BEFORE_LOAD`, whatever raises it. -/
def Obligations.TrapBeforeLoadFaults : Prop :=
  ∀ (s : State) (source : TrapSource) (v : Vec) (err : BitVec 64), s.idtr = none → s.consumer.halted = false →
    (source = .external → interruptsEnabled s.cfg s.consumer.ctx.rflags = true) →
    consumerStep (.trap source v err) s = .fault .beforeLoad

/-- R182, R183, R184: after LOAD, a trap that the consumer takes ends the run with the fault named for it when its slot is `⊥`, its
gate is not present or its handler address fails `VALID_CODE`. The same when the delivery would fail for a reason of the
consumer's own (log 15: the lookup comes first). Which code may invoke a gate: log 14. -/
def Obligations.UndeliverableTrapsFault : Prop :=
  ∀ (s : State) (source : TrapSource) (v : Vec) (err : BitVec 64), StepInv s → RegisterInv s → activeBit s.status = true →
    s.consumer.halted = false → takesTrap s source = true →
    ∀ e ∈ [ConsumerEvent.trap source v err, .deliveryFails v err],
      (readSlot s.cfg s.mem v = none → consumerStep e s = .fault .unwritten) ∧
      ∀ d, readSlot s.cfg s.mem v = some d →
        (d.getLsbD 47 = false → consumerStep e s = .fault .notPresent) ∧
        (d.getLsbD 47 = true → validCode s.cfg (decodeGate d).offset = false → consumerStep e s = .fault .badHandler)

/-- R185, R186, R187, R188: a trap that the consumer takes, through an encoded descriptor, enters its handler: the new registers,
interrupts disabled, the error code and the frame at ascending addresses from the new stack pointer, every byte of stack memory
outside them as it was, and nothing outside the consumer changed. With the model's own choices of what the spec leaves out: no
alignment, other flags and stack segment kept (log 9), the flag's place (log 10), a stack outside the table (log 11), the list of
handlers in service (log 12), who may invoke a gate (log 14), the error code's value (log 24), the zero upper bits of the two
pushed selectors (log 25), any source for any vector (log 26). -/
def Obligations.TrapEntersHandler : Prop :=
  ∀ (s : State) (source : TrapSource) (v : Vec) (err : BitVec 64) (h : Addr) (ist : Ist), StepInv s → RegisterInv s →
    activeBit s.status = true → s.consumer.halted = false → takesTrap s source = true →
    readSlot s.cfg s.mem v = some (encodeGate h ist s.cfg.kcodeSel) → validCode s.cfg h = true →
    touchesTable s.cfg (entryTop s v ist) (if hasErrorCode s.cfg v then 48 else 40) = false →
    ∃ t, consumerStep (.trap source v err) s = .next t ∧
      t = { s with consumer := {
        ctx := {
          rip := h
          cs := s.cfg.kcodeSel
          rflags := s.consumer.ctx.rflags &&& ~~~(1#64 <<< s.cfg.interruptBit.val)
          rsp := entryTop s v ist
          ss := s.consumer.ctx.ss }
        handlers := v :: s.consumer.handlers
        halted := false
        stack := t.consumer.stack } } ∧
      interruptsEnabled s.cfg t.consumer.ctx.rflags = false ∧
      (hasErrorCode s.cfg v = true → memRead t.consumer.stack (entryTop s v ist) 8 = some err.toNat) ∧
      readWords t.consumer.stack (entryTop s v ist + if hasErrorCode s.cfg v then 8#64 else 0#64) 5 =
        some [s.consumer.ctx.rip, s.consumer.ctx.cs.setWidth 64, s.consumer.ctx.rflags, s.consumer.ctx.rsp,
          s.consumer.ctx.ss.setWidth 64] ∧
      ∀ a : Addr, (∀ k, k < (if hasErrorCode s.cfg v then 48 else 40) → a ≠ entryTop s v ist + BitVec.ofNat 64 k) →
        readByte t.consumer.stack a.toNat = readByte s.consumer.stack a.toNat

/-- R189, for the frame the model pushes and the handlers it keeps in service (logs 9, 12, 25): when the handler a trap entered
ends, the trap return restores the five registers of the interrupted context, whatever the gate was, and the error code is
discarded. It says nothing of what the resumed code then does (U9). -/
def Obligations.TrapReturnRestoresContext : Prop :=
  ∀ (s t : State) (v : Vec) (err : BitVec 64), v ≠ 8#8 → s.consumer.halted = false → deliver v err s = .next t →
    ∃ u, consumerStep .handlerEnds t = .next u ∧ u.consumer.ctx = s.consumer.ctx ∧
      u.consumer.handlers = s.consumer.handlers ∧ u.consumer.stack = t.consumer.stack

/-- R190, R199: when the double-fault handler ends, the consumer is halted and nothing else changes; a halted consumer takes no
step, whatever it meets. -/
def Obligations.DoubleFaultHandlerHalts : Prop :=
  (∀ (s : State) (outer : List Vec), s.consumer.halted = false → s.consumer.handlers = 8#8 :: outer →
    consumerStep .handlerEnds s = .next { s with consumer := { s.consumer with halted := true } }) ∧
  ∀ (s : State) (e : ConsumerEvent), s.consumer.halted = true → consumerStep e s = .fault .halted

/-- R191, with the model's own event for a failed delivery and its place after the lookup (log 15), the error code the event
carries (log 24), and the failed trap leaving nothing behind (log 27): when the trap's own gate resolves, a failure to deliver it
delivers the double fault from the interrupted context, and a failure to deliver the double fault is `DF_DELIVERY`; when its gate
does not resolve, that lookup's own fault ends the run. -/
def Obligations.FailedDeliveryRaisesDoubleFault : Prop :=
  ∀ (s : State) (v : Vec) (err : BitVec 64), s.consumer.halted = false →
    (∀ f, resolveGate s v = .fault f → consumerStep (.deliveryFails v err) s = .fault f) ∧
    ∀ g, resolveGate s v = .gate g →
      (v = 8#8 → consumerStep (.deliveryFails v err) s = .fault .dfDelivery) ∧
      (∀ f, v ≠ 8#8 → resolveGate s 8#8 = .fault f → consumerStep (.deliveryFails v err) s = .fault .dfDelivery) ∧
      ∀ g8, v ≠ 8#8 → resolveGate s 8#8 = .gate g8 → consumerStep (.deliveryFails v err) s = deliver 8#8 err s

/-- R187, R193, with the model's own choice that a masked interrupt leaves no pending state (log 16), and for
every vector (log 26): an external interrupt is not delivered while the interrupt flag is 0, and is delivered while it is 1. -/
def Obligations.InterruptFlagMasks : Prop :=
  ∀ (s : State) (v : Vec) (err : BitVec 64), s.consumer.halted = false →
    (interruptsEnabled s.cfg s.consumer.ctx.rflags = false → consumerStep (.trap .external v err) s = .next s) ∧
    (interruptsEnabled s.cfg s.consumer.ctx.rflags = true → consumerStep (.trap .external v err) s = deliver v err s)

/-- R195, with the model's own reading of which code is unprivileged (log 14): code outside the kernel code segment that invokes
a gate IDTEL wrote is refused with a general-protection fault, trap 13; kernel code is not. -/
def Obligations.UnprivilegedInvocationRefused : Prop :=
  ∀ (s : State) (v : Vec) (err : BitVec 64) (h : Addr) (ist : Ist), StepInv s → RegisterInv s → activeBit s.status = true →
    s.consumer.halted = false → readSlot s.cfg s.mem v = some (encodeGate h ist s.cfg.kcodeSel) →
    consumerStep (.trap .software v err) s =
      if s.consumer.ctx.cs = s.cfg.kcodeSel then deliver v err s else deliver 13#8 err s

/-- R188: `ERRCODE_VECTORS` contains 8, 13 and 14 and not 33 under every configuration, and is any such set under some. -/
def Obligations.ErrorCodeVectors : Prop :=
  (∀ c : Config, hasErrorCode c 8#8 = true ∧ hasErrorCode c 13#8 = true ∧ hasErrorCode c 14#8 = true ∧
    hasErrorCode c 33#8 = false) ∧
  ∀ p : Vec → Bool, p 8#8 = true → p 13#8 = true → p 14#8 = true → p 33#8 = false →
    ∃ c : Config, ∀ v, hasErrorCode c v = p v

/-! ### The population set and the boot sequence (41_table_manager.md R135-R138, 70_reset_and_hazards.md R201) -/

/-- R136, R137, R138: the six SETGATEs of `idt_populate`, from every state in phase POPULATING: each designated slot is present
with its handler, only the double-fault slot has a non-zero index, and every other slot is as it was. -/
def Obligations.PopulateAssignsSixSlots : Prop :=
  ∀ (s : State) (hDf hNp hSs hGp hPf hApp : Addr), phaseOf s.status = .populating →
    ∃ t, execAll (idtPopulate s.cfg hDf hNp hSs hGp hPf hApp) s = .next t ∧
      (∀ r ∈ [(8#8, hDf), (11#8, hNp), (12#8, hSs), (13#8, hGp), (14#8, hPf), (33#8, hApp)],
        ∃ d, readSlot t.cfg t.mem r.1 = some d ∧ (decodeGate d).present = 1#1 ∧ (decodeGate d).offset = r.2 ∧
          (decodeGate d).ist = if r.1 = 8#8 then dfIst s.cfg else 0#3) ∧
      dfIst s.cfg ≠ 0#3 ∧
      (∀ v, v ∉ [8#8, 11#8, 12#8, 13#8, 14#8, 33#8] → readSlot t.cfg t.mem v = readSlot s.cfg s.mem v) ∧
      phaseOf t.status = .populating

/-- R138, R201, R214: the boot sequence `idt_init`, from every state in phase POPULATING: afterwards the table is active, the six
vectors' lookups give their handlers, and every other vector's is the fatal `NOT_PRESENT`. -/
def Obligations.BootSequenceBuildsTable : Prop :=
  ∀ (s : State) (hDf hNp hSs hGp hPf hApp : Addr), phaseOf s.status = .populating →
    ∃ t, execAll (idtInit s.cfg hDf hNp hSs hGp hPf hApp) s = .next t ∧ phaseOf t.status = .active ∧
      t.idtr = some (payloadOf (tableBase s.cfg)) ∧ t.ci = s.ci + 8 ∧
      (∀ r ∈ [(8#8, hDf), (11#8, hNp), (12#8, hSs), (13#8, hGp), (14#8, hPf), (33#8, hApp)],
        ∃ g, gateLookup t r.1 = .gate g ∧ g.offset = r.2 ∧ g.sel = s.cfg.kcodeSel) ∧
      ∀ v, v ∉ [8#8, 11#8, 12#8, 13#8, 14#8, 33#8] → gateLookup t v = .fault .notPresent
end

