-- ==== Sys2Proof/Laws/Memory.lean ====
section
/-! SUPPORT. Byte-addressed memory: a read after a write, the canonical form, and little-endian values. -/

namespace Sys2Proof.Machine

/-! ### Runs of bytes -/

/-- Reading in a list of cells that starts with other cells. -/
theorem readByte_append (m n : Memory) (x : Nat) : readByte (m ++ n) x = (readByte m x).or (readByte n x) := by
  induction m with
  | nil => simp [readByte]
  | cons e m ih =>
    obtain ⟨k, b⟩ := e
    by_cases h : k = x <;> simp [readByte, h, ih]

/-- Reading in the cells whose addresses pass a test. -/
theorem readByte_filter (m : Memory) (p : Nat → Bool) (x : Nat) :
    readByte (m.filter fun e => p e.1) x = if p x then readByte m x else none := by
  induction m with
  | nil => simp [readByte]
  | cons e m ih =>
    obtain ⟨k, b⟩ := e
    by_cases hk : k = x
    · subst hk
      by_cases hp : p k <;> simp [readByte, hp, ih]
    · by_cases hp : p k <;> simp [readByte, hp, hk, ih]

/-- Reading in a run of cells. -/
theorem readByte_cellsFrom (a : Nat) (bs : List Byte) (x : Nat) :
    readByte (cellsFrom a bs) x = if a ≤ x then bs[x - a]? else none := by
  induction bs generalizing a with
  | nil => simp [cellsFrom, readByte]
  | cons b bs ih =>
    simp only [cellsFrom, readByte, ih]
    by_cases h : a = x
    · simp [h]
    · by_cases hl : a ≤ x
      · rw [if_neg h, if_pos (by omega), if_pos hl, show x - a = (x - (a + 1)) + 1 by omega, List.getElem?_cons_succ]
      · rw [if_neg h, if_neg (by omega), if_neg hl]

/-- Reading after writing a run. -/
theorem readByte_writeRun (m : Memory) (a : Nat) (bs : List Byte) (x : Nat) :
    readByte (writeRun m a bs) x = if a ≤ x ∧ x < a + bs.length then bs[x - a]? else readByte m x := by
  rw [writeRun, readByte_append, readByte_append, readByte_cellsFrom,
    readByte_filter m (fun k => decide (k < a)), readByte_filter m (fun k => decide (a + bs.length ≤ k))]
  by_cases h1 : x < a
  · rw [if_pos (by simpa using h1), if_neg (by omega), if_neg (by simp; omega), if_neg (by omega)]
    simp
  · by_cases h2 : x < a + bs.length
    · rw [if_neg (by simpa using h1), if_pos (by omega), if_neg (by simp; omega), if_pos (by omega)]
      simp
    · rw [if_neg (by simpa using h1), if_pos (by omega), if_pos (by simp; omega), if_neg (by omega),
        List.getElem?_eq_none (by omega)]
      simp

/-- The addresses of a run of cells. -/
theorem mem_cellsFrom {a : Nat} {bs : List Byte} {e : Host.Cell} (h : e ∈ cellsFrom a bs) :
    a ≤ e.1 ∧ e.1 < a + bs.length := by
  induction bs generalizing a with
  | nil => simp [cellsFrom] at h
  | cons b bs ih =>
    rcases List.mem_cons.1 h with rfl | h
    · simp
    · have := ih h
      simp only [List.length_cons]
      omega

/-- A run of cells is in canonical form. -/
theorem cellsFrom_wf (a : Nat) (bs : List Byte) : Memory.wf (cellsFrom a bs) := by
  induction bs generalizing a with
  | nil => exact List.Pairwise.nil
  | cons b bs ih => exact List.pairwise_cons.2 ⟨fun e he => (mem_cellsFrom he).1, ih _⟩

/-- Writing a run keeps the canonical form. -/
theorem writeRun_wf {m : Memory} (h : Memory.wf m) (a : Nat) (bs : List Byte) : Memory.wf (writeRun m a bs) := by
  refine List.pairwise_append.2 ⟨List.pairwise_append.2 ⟨h.filter _, cellsFrom_wf a bs, ?_⟩, h.filter _, ?_⟩
  · intro x hx y hy
    have h1 : x.1 < a := by simpa using (List.mem_filter.1 hx).2
    exact lt_of_lt_of_le h1 (mem_cellsFrom hy).1
  · intro x hx y hy
    have h2 : a + bs.length ≤ y.1 := by simpa using (List.mem_filter.1 hy).2
    rcases List.mem_append.1 hx with hx | hx
    · have h1 : x.1 < a := by simpa using (List.mem_filter.1 hx).2
      omega
    · have := (mem_cellsFrom hx).2
      omega

/-! ### Bytes at 64-bit addresses -/

/-- Writing bytes keeps the canonical form. -/
theorem writeBytes_wf {m : Memory} (h : Memory.wf m) (a : Addr) (bs : List Byte) : Memory.wf (writeBytes m a bs) :=
  writeRun_wf (writeRun_wf h _ _) _ _

/-- The address one up, `i` times, is the address `i + 1` up. -/
theorem addr_succ (a : Addr) (i : Nat) : a + 1#64 + BitVec.ofNat 64 i = a + BitVec.ofNat 64 (i + 1) := by
  apply BitVec.eq_of_toNat_eq
  simp [BitVec.toNat_add]
  omega

/-- Addresses less than 2^64 apart are different. -/
theorem addr_inj {a : Addr} {i j : Nat} (hi : i < 2 ^ 64) (hj : j < 2 ^ 64)
    (h : a + BitVec.ofNat 64 i = a + BitVec.ofNat 64 j) : i = j := by
  have h' := congrArg BitVec.toNat (add_left_cancel h)
  rwa [BitVec.toNat_ofNat, BitVec.toNat_ofNat, Nat.mod_eq_of_lt hi, Nat.mod_eq_of_lt hj] at h'

/-- An address a little up is another address. -/
theorem addr_ne {a : Addr} {i : Nat} (h0 : 0 < i) (hi : i < 2 ^ 64) : (a + BitVec.ofNat 64 i).toNat ≠ a.toNat := fun h =>
  absurd (addr_inj (a := a) (i := i) (j := 0) hi (by omega) (by simpa using BitVec.eq_of_toNat_eq h)) (by omega)

/-- The byte written at each address. -/
theorem readByte_writeBytes_at (m : Memory) {a : Addr} {bs : List Byte} {i : Nat} (hi : i < bs.length)
    (hb : bs.length ≤ 2 ^ 64) : readByte (writeBytes m a bs) (a + BitVec.ofNat 64 i).toNat = bs[i]? := by
  have ha := a.isLt
  have hx : (a + BitVec.ofNat 64 i).toNat = (a.toNat + i) % 2 ^ 64 := by simp [BitVec.toNat_add]
  rw [writeBytes, readByte_writeRun, readByte_writeRun, hx, List.length_take, List.length_drop]
  by_cases h : a.toNat + i < 2 ^ 64
  · rw [Nat.mod_eq_of_lt h, if_pos (by omega), Nat.add_sub_cancel_left, List.getElem?_take, if_pos (by omega)]
  · rw [show (a.toNat + i) % 2 ^ 64 = a.toNat + i - 2 ^ 64 by omega, if_neg (by omega), if_pos (by omega),
      List.getElem?_drop, show 2 ^ 64 - a.toNat + (a.toNat + i - 2 ^ 64 - 0) = i by omega]

/-- Writing bytes leaves every other address alone. -/
theorem readByte_writeBytes_other (m : Memory) {a : Addr} {bs : List Byte} {x : Nat} (hx : x < 2 ^ 64)
    (h : ∀ i, i < bs.length → x ≠ (a + BitVec.ofNat 64 i).toNat) : readByte (writeBytes m a bs) x = readByte m x := by
  have ha := a.isLt
  have hn : ∀ i, i < bs.length → x ≠ (a.toNat + i) % 2 ^ 64 := fun i hi => by
    simpa [BitVec.toNat_add] using h i hi
  rw [writeBytes, readByte_writeRun, readByte_writeRun, List.length_take, List.length_drop, if_neg, if_neg]
  · intro hc
    exact hn (x + (2 ^ 64 - a.toNat)) (by omega) (by omega)
  · intro hc
    exact hn (x - a.toNat) (by omega) (by omega)

/-- Reading depends on the bytes read and nothing else. -/
theorem readBytes_congr {m m' : Memory} {a : Addr} {n : Nat}
    (h : ∀ i, i < n → readByte m (a + BitVec.ofNat 64 i).toNat = readByte m' (a + BitVec.ofNat 64 i).toNat) :
    readBytes m a n = readBytes m' a n := by
  induction n generalizing a with
  | zero => rfl
  | succ n ih =>
    have h0 := h 0 (by omega)
    have ht : readBytes m (a + 1#64) n = readBytes m' (a + 1#64) n :=
      ih fun i hi => by rw [addr_succ]; exact h (i + 1) (by omega)
    simp only [readBytes, ht]
    rw [show readByte m a.toNat = readByte m' a.toNat by simpa using h0]

/-- Reading bytes that are known one by one. -/
theorem readBytes_eq {m : Memory} {a : Addr} {bs : List Byte}
    (h : ∀ i, i < bs.length → readByte m (a + BitVec.ofNat 64 i).toNat = bs[i]?) : readBytes m a bs.length = some bs := by
  induction bs generalizing a with
  | nil => rfl
  | cons b bs ih =>
    simp only [List.length_cons] at h
    have h0 : readByte m a.toNat = some b := by simpa using h 0 (by omega)
    have ht : readBytes m (a + 1#64) bs.length = some bs :=
      ih fun i hi => by rw [addr_succ]; simpa using h (i + 1) (by omega)
    simp only [List.length_cons, readBytes, h0, ht]

/-- What was written is read back. -/
theorem readBytes_writeBytes_same (m : Memory) (a : Addr) (bs : List Byte) (hb : bs.length ≤ 2 ^ 64) :
    readBytes (writeBytes m a bs) a bs.length = some bs :=
  readBytes_eq fun _ hi => readByte_writeBytes_at m hi hb

/-- A read that gives a value gives each byte. -/
theorem readBytes_some {m : Memory} {a : Addr} {n : Nat} {bs : List Byte} (h : readBytes m a n = some bs) :
    bs.length = n ∧ ∀ i, i < n → readByte m (a + BitVec.ofNat 64 i).toNat = bs[i]? := by
  induction n generalizing a bs with
  | zero => cases h; simp
  | succ n ih =>
    simp only [readBytes] at h
    split at h
    · cases h
    · rename_i b hb
      split at h
      · cases h
      · rename_i bs' hbs
        cases h
        obtain ⟨hl, hi⟩ := ih hbs
        refine ⟨by simp [hl], fun i hn => ?_⟩
        cases i with
        | zero => simpa using hb
        | succ i => rw [← addr_succ]; simpa using hi i (by omega)

/-- A read is `⊥` when one of its bytes is, and only then. -/
theorem readBytes_eq_none_iff {m : Memory} {a : Addr} {n : Nat} :
    readBytes m a n = none ↔ ∃ i, i < n ∧ readByte m (a + BitVec.ofNat 64 i).toNat = none := by
  induction n generalizing a with
  | zero => simp [readBytes]
  | succ n ih =>
    simp only [readBytes]
    constructor
    · intro h
      split at h
      · exact ⟨0, by omega, by simpa using ‹_›⟩
      · split at h
        · obtain ⟨i, hi, hn⟩ := ih.1 ‹_›
          exact ⟨i + 1, by omega, by rwa [← addr_succ]⟩
        · cases h
    · rintro ⟨i, hi, hn⟩
      cases i with
      | zero =>
        have h0 : readByte m a.toNat = none := by simpa using hn
        simp [h0]
      | succ i =>
        have ht := ih.2 ⟨i, by omega, by rwa [addr_succ]⟩
        split
        · rfl
        · simp [ht]

/-! ### Values (R51) -/

@[simp] theorem bytesOf_length (n v : Nat) : (bytesOf n v).length = n := by
  induction n generalizing v with
  | zero => rfl
  | succ n ih => simp [bytesOf, ih]

/-- Byte `i` of a value holds its bits `8i+7` to `8i`. -/
theorem bytesOf_getElem? (n v i : Nat) (h : i < n) : (bytesOf n v)[i]? = some (BitVec.ofNat 8 (v / 256 ^ i)) := by
  induction n generalizing v i with
  | zero => omega
  | succ n ih =>
    cases i with
    | zero => simp [bytesOf]
    | succ i => simpa [bytesOf, Nat.div_div_eq_div_mul, Nat.pow_succ, Nat.mul_comm] using ih (v / 256) i (by omega)

/-- The value of a value's bytes. -/
theorem ofBytes_bytesOf (n v : Nat) : ofBytes (bytesOf n v) = v % 256 ^ n := by
  induction n generalizing v with
  | zero => simp [bytesOf, ofBytes, Nat.mod_one]
  | succ n ih =>
    have h := Nat.mod_mul (x := v) (a := 256) (b := 256 ^ n)
    rw [bytesOf, ofBytes, ih, BitVec.toNat_ofNat, Nat.pow_succ' (n := n) (m := 256), h]

/-- `MemWrite` then `MemRead` at the same address. -/
theorem memRead_memWrite_same (m : Memory) (a : Addr) {n v : Nat} (hn : n ≤ 2 ^ 64) (hv : v < 256 ^ n) :
    memRead (memWrite m a n v) a n = some v := by
  have h := readBytes_writeBytes_same m a (bytesOf n v) (by simpa using hn)
  rw [bytesOf_length] at h
  rw [memRead, memWrite, h, Option.map_some, ofBytes_bytesOf, Nat.mod_eq_of_lt hv]

/-- `MemRead` depends on the bytes read and nothing else. -/
theorem memRead_congr {m m' : Memory} {a : Addr} {n : Nat}
    (h : ∀ i, i < n → readByte m (a + BitVec.ofNat 64 i).toNat = readByte m' (a + BitVec.ofNat 64 i).toNat) :
    memRead m a n = memRead m' a n := by
  rw [memRead, memRead, readBytes_congr h]

/-- `MemWrite` leaves every other address alone. -/
theorem readByte_memWrite_other (m : Memory) {a : Addr} {n v x : Nat} (hx : x < 2 ^ 64)
    (h : ∀ i, i < n → x ≠ (a + BitVec.ofNat 64 i).toNat) : readByte (memWrite m a n v) x = readByte m x :=
  readByte_writeBytes_other m hx (by simpa using h)

/-- The byte `MemWrite` puts at each of its addresses. -/
theorem readByte_memWrite_at (m : Memory) (a : Addr) {n v i : Nat} (hn : n ≤ 2 ^ 64) (hi : i < n) :
    readByte (memWrite m a n v) (a + BitVec.ofNat 64 i).toNat = some (BitVec.ofNat 8 (v / 256 ^ i)) := by
  rw [memWrite, readByte_writeBytes_at m (by simpa using hi) (by simpa using hn), bytesOf_getElem? _ _ _ hi]

/-- `MemWrite` keeps the canonical form. -/
theorem memWrite_wf {m : Memory} (h : Memory.wf m) (a : Addr) (n v : Nat) : Memory.wf (memWrite m a n v) :=
  writeBytes_wf h a _

/-- `n` copies of bytes, `k`-th byte of copy `v`. -/
theorem repeatBytes_getElem? (n : Nat) (bs : List Byte) {v k : Nat} (hv : v < n) (hk : k < bs.length) :
    (repeatBytes n bs)[bs.length * v + k]? = bs[k]? := by
  induction n generalizing v with
  | zero => omega
  | succ n ih =>
    cases v with
    | zero => simp [repeatBytes, List.getElem?_append_left hk]
    | succ v =>
      rw [repeatBytes, List.getElem?_append_right (by rw [Nat.mul_succ]; omega),
        show bs.length * (v + 1) + k - bs.length = bs.length * v + k by rw [Nat.mul_succ]; omega]
      exact ih (by omega)

@[simp] theorem repeatBytes_length (n : Nat) (bs : List Byte) : (repeatBytes n bs).length = n * bs.length := by
  induction n with
  | zero => simp [repeatBytes]
  | succ n ih => simp [repeatBytes, ih, Nat.succ_mul, Nat.add_comm]

/-! ### Words -/

@[simp] theorem wordBytes_length (ws : List (BitVec 64)) : (wordBytes ws).length = 8 * ws.length := by
  induction ws with
  | nil => rfl
  | cons w ws ih => simp [wordBytes, ih]; omega

/-- Writing words keeps the canonical form. -/
theorem writeWords_wf {m : Memory} (h : Memory.wf m) (a : Addr) (ws : List (BitVec 64)) : Memory.wf (writeWords m a ws) :=
  writeBytes_wf h _ _

/-- Writing words leaves every other address alone. -/
theorem readByte_writeWords_other (m : Memory) {a : Addr} {ws : List (BitVec 64)} {x : Nat} (hx : x < 2 ^ 64)
    (h : ∀ i, i < 8 * ws.length → x ≠ (a + BitVec.ofNat 64 i).toNat) : readByte (writeWords m a ws) x = readByte m x :=
  readByte_writeBytes_other m hx (by simpa using h)

/-- The address `8` up and then `i` up. -/
theorem addr_word (a : Addr) (i : Nat) : a + 8#64 + BitVec.ofNat 64 i = a + BitVec.ofNat 64 (i + 8) := by
  apply BitVec.eq_of_toNat_eq
  simp [BitVec.toNat_add]
  omega

/-- Reading words whose bytes are known one by one. -/
theorem readWords_eq {m : Memory} {a : Addr} {ws : List (BitVec 64)}
    (h : ∀ i, i < 8 * ws.length → readByte m (a + BitVec.ofNat 64 i).toNat = (wordBytes ws)[i]?) :
    readWords m a ws.length = some ws := by
  induction ws generalizing a with
  | nil => rfl
  | cons w ws ih =>
    simp only [List.length_cons, wordBytes] at h
    have hw : w.toNat < 256 ^ 8 := w.isLt.trans_eq (by norm_num)
    have h0 : memRead m a 8 = some w.toNat := by
      have hb : readBytes m a (bytesOf 8 w.toNat).length = some (bytesOf 8 w.toNat) := readBytes_eq fun i hi => by
        rw [bytesOf_length] at hi
        rw [h i (by omega), List.getElem?_append_left (by simpa using hi)]
      rw [bytesOf_length] at hb
      rw [memRead, hb, Option.map_some, ofBytes_bytesOf, Nat.mod_eq_of_lt hw]
    have ht : readWords m (a + 8#64) ws.length = some ws := ih fun i hi => by
      rw [addr_word, h (i + 8) (by omega), List.getElem?_append_right (by simp)]
      simp
    rw [List.length_cons, readWords, h0, ht]
    simp

/-- What was written is read back. -/
theorem readWords_writeWords_same (m : Memory) (a : Addr) (ws : List (BitVec 64)) (hw : 8 * ws.length ≤ 2 ^ 64) :
    readWords (writeWords m a ws) a ws.length = some ws :=
  readWords_eq fun _ hi => readByte_writeBytes_at m (by simpa using hi) (by simpa using hw)

/-- The words above the first one written are read back. -/
theorem readWords_writeWords_above (m : Memory) (a : Addr) (w : BitVec 64) (ws : List (BitVec 64))
    (hw : 8 * (ws.length + 1) ≤ 2 ^ 64) : readWords (writeWords m a (w :: ws)) (a + 8#64) ws.length = some ws :=
  readWords_eq fun i hi => by
    rw [addr_word, writeWords, readByte_writeBytes_at m (by simp; omega) (by simpa using hw), wordBytes,
      List.getElem?_append_right (by simp)]
    simp

/-- The first word written is read back. -/
theorem memRead_writeWords_head (m : Memory) (a : Addr) (w : BitVec 64) (ws : List (BitVec 64))
    (hw : 8 * (ws.length + 1) ≤ 2 ^ 64) : memRead (writeWords m a (w :: ws)) a 8 = some w.toNat := by
  have hl : w.toNat < 256 ^ 8 := w.isLt.trans_eq (by norm_num)
  have hb : readBytes (writeWords m a (w :: ws)) a (bytesOf 8 w.toNat).length = some (bytesOf 8 w.toNat) :=
    readBytes_eq fun i hi => by
      rw [bytesOf_length] at hi
      rw [writeWords, readByte_writeBytes_at m (by simp; omega) (by simpa using hw), wordBytes,
        List.getElem?_append_left (by simpa using hi)]
  rw [bytesOf_length] at hb
  rw [memRead, hb, Option.map_some, ofBytes_bytesOf, Nat.mod_eq_of_lt hl]

end Sys2Proof.Machine
end

