-- ==== Sys2Proof/Laws/State.lean ====
section
/-! SUPPORT. Reading a field after writing one: a lemma for each field and each update, so that no proof unfolds a record
update. -/

namespace Sys2Proof.Machine.State

@[simp] theorem setMem_cfg (s : State) (m : Memory) : (s.setMem m).cfg = s.cfg := rfl
@[simp] theorem setMem_mem (s : State) (m : Memory) : (s.setMem m).mem = m := rfl
@[simp] theorem setMem_dout (s : State) (m : Memory) : (s.setMem m).dout = s.dout := rfl
@[simp] theorem setMem_payload (s : State) (m : Memory) : (s.setMem m).payload = s.payload := rfl
@[simp] theorem setMem_idtr (s : State) (m : Memory) : (s.setMem m).idtr = s.idtr := rfl
@[simp] theorem setMem_status (s : State) (m : Memory) : (s.setMem m).status = s.status := rfl
@[simp] theorem setMem_fcause (s : State) (m : Memory) : (s.setMem m).fcause = s.fcause := rfl
@[simp] theorem setMem_ci (s : State) (m : Memory) : (s.setMem m).ci = s.ci := rfl
@[simp] theorem setMem_program (s : State) (m : Memory) : (s.setMem m).program = s.program := rfl
@[simp] theorem setMem_agenda (s : State) (m : Memory) : (s.setMem m).agenda = s.agenda := rfl
@[simp] theorem setMem_consumer (s : State) (m : Memory) : (s.setMem m).consumer = s.consumer := rfl

@[simp] theorem setDout_cfg (s : State) (d : Option Desc) : (s.setDout d).cfg = s.cfg := rfl
@[simp] theorem setDout_mem (s : State) (d : Option Desc) : (s.setDout d).mem = s.mem := rfl
@[simp] theorem setDout_dout (s : State) (d : Option Desc) : (s.setDout d).dout = d := rfl
@[simp] theorem setDout_payload (s : State) (d : Option Desc) : (s.setDout d).payload = s.payload := rfl
@[simp] theorem setDout_idtr (s : State) (d : Option Desc) : (s.setDout d).idtr = s.idtr := rfl
@[simp] theorem setDout_status (s : State) (d : Option Desc) : (s.setDout d).status = s.status := rfl
@[simp] theorem setDout_fcause (s : State) (d : Option Desc) : (s.setDout d).fcause = s.fcause := rfl
@[simp] theorem setDout_ci (s : State) (d : Option Desc) : (s.setDout d).ci = s.ci := rfl
@[simp] theorem setDout_program (s : State) (d : Option Desc) : (s.setDout d).program = s.program := rfl
@[simp] theorem setDout_agenda (s : State) (d : Option Desc) : (s.setDout d).agenda = s.agenda := rfl
@[simp] theorem setDout_consumer (s : State) (d : Option Desc) : (s.setDout d).consumer = s.consumer := rfl

@[simp] theorem setPayload_cfg (s : State) (p : Option Payload) : (s.setPayload p).cfg = s.cfg := rfl
@[simp] theorem setPayload_mem (s : State) (p : Option Payload) : (s.setPayload p).mem = s.mem := rfl
@[simp] theorem setPayload_dout (s : State) (p : Option Payload) : (s.setPayload p).dout = s.dout := rfl
@[simp] theorem setPayload_payload (s : State) (p : Option Payload) : (s.setPayload p).payload = p := rfl
@[simp] theorem setPayload_idtr (s : State) (p : Option Payload) : (s.setPayload p).idtr = s.idtr := rfl
@[simp] theorem setPayload_status (s : State) (p : Option Payload) : (s.setPayload p).status = s.status := rfl
@[simp] theorem setPayload_fcause (s : State) (p : Option Payload) : (s.setPayload p).fcause = s.fcause := rfl
@[simp] theorem setPayload_ci (s : State) (p : Option Payload) : (s.setPayload p).ci = s.ci := rfl
@[simp] theorem setPayload_program (s : State) (p : Option Payload) : (s.setPayload p).program = s.program := rfl
@[simp] theorem setPayload_agenda (s : State) (p : Option Payload) : (s.setPayload p).agenda = s.agenda := rfl
@[simp] theorem setPayload_consumer (s : State) (p : Option Payload) : (s.setPayload p).consumer = s.consumer := rfl

@[simp] theorem setIdtr_cfg (s : State) (p : Option Payload) : (s.setIdtr p).cfg = s.cfg := rfl
@[simp] theorem setIdtr_mem (s : State) (p : Option Payload) : (s.setIdtr p).mem = s.mem := rfl
@[simp] theorem setIdtr_dout (s : State) (p : Option Payload) : (s.setIdtr p).dout = s.dout := rfl
@[simp] theorem setIdtr_payload (s : State) (p : Option Payload) : (s.setIdtr p).payload = s.payload := rfl
@[simp] theorem setIdtr_idtr (s : State) (p : Option Payload) : (s.setIdtr p).idtr = p := rfl
@[simp] theorem setIdtr_status (s : State) (p : Option Payload) : (s.setIdtr p).status = s.status := rfl
@[simp] theorem setIdtr_fcause (s : State) (p : Option Payload) : (s.setIdtr p).fcause = s.fcause := rfl
@[simp] theorem setIdtr_ci (s : State) (p : Option Payload) : (s.setIdtr p).ci = s.ci := rfl
@[simp] theorem setIdtr_program (s : State) (p : Option Payload) : (s.setIdtr p).program = s.program := rfl
@[simp] theorem setIdtr_agenda (s : State) (p : Option Payload) : (s.setIdtr p).agenda = s.agenda := rfl
@[simp] theorem setIdtr_consumer (s : State) (p : Option Payload) : (s.setIdtr p).consumer = s.consumer := rfl

@[simp] theorem setStatus_cfg (s : State) (v : BitVec 32) : (s.setStatus v).cfg = s.cfg := rfl
@[simp] theorem setStatus_mem (s : State) (v : BitVec 32) : (s.setStatus v).mem = s.mem := rfl
@[simp] theorem setStatus_dout (s : State) (v : BitVec 32) : (s.setStatus v).dout = s.dout := rfl
@[simp] theorem setStatus_payload (s : State) (v : BitVec 32) : (s.setStatus v).payload = s.payload := rfl
@[simp] theorem setStatus_idtr (s : State) (v : BitVec 32) : (s.setStatus v).idtr = s.idtr := rfl
@[simp] theorem setStatus_status (s : State) (v : BitVec 32) : (s.setStatus v).status = v := rfl
@[simp] theorem setStatus_fcause (s : State) (v : BitVec 32) : (s.setStatus v).fcause = s.fcause := rfl
@[simp] theorem setStatus_ci (s : State) (v : BitVec 32) : (s.setStatus v).ci = s.ci := rfl
@[simp] theorem setStatus_program (s : State) (v : BitVec 32) : (s.setStatus v).program = s.program := rfl
@[simp] theorem setStatus_agenda (s : State) (v : BitVec 32) : (s.setStatus v).agenda = s.agenda := rfl
@[simp] theorem setStatus_consumer (s : State) (v : BitVec 32) : (s.setStatus v).consumer = s.consumer := rfl

@[simp] theorem setFcause_cfg (s : State) (v : BitVec 32) : (s.setFcause v).cfg = s.cfg := rfl
@[simp] theorem setFcause_mem (s : State) (v : BitVec 32) : (s.setFcause v).mem = s.mem := rfl
@[simp] theorem setFcause_dout (s : State) (v : BitVec 32) : (s.setFcause v).dout = s.dout := rfl
@[simp] theorem setFcause_payload (s : State) (v : BitVec 32) : (s.setFcause v).payload = s.payload := rfl
@[simp] theorem setFcause_idtr (s : State) (v : BitVec 32) : (s.setFcause v).idtr = s.idtr := rfl
@[simp] theorem setFcause_status (s : State) (v : BitVec 32) : (s.setFcause v).status = s.status := rfl
@[simp] theorem setFcause_fcause (s : State) (v : BitVec 32) : (s.setFcause v).fcause = v := rfl
@[simp] theorem setFcause_ci (s : State) (v : BitVec 32) : (s.setFcause v).ci = s.ci := rfl
@[simp] theorem setFcause_program (s : State) (v : BitVec 32) : (s.setFcause v).program = s.program := rfl
@[simp] theorem setFcause_agenda (s : State) (v : BitVec 32) : (s.setFcause v).agenda = s.agenda := rfl
@[simp] theorem setFcause_consumer (s : State) (v : BitVec 32) : (s.setFcause v).consumer = s.consumer := rfl

@[simp] theorem setCi_cfg (s : State) (n : Nat) : (s.setCi n).cfg = s.cfg := rfl
@[simp] theorem setCi_mem (s : State) (n : Nat) : (s.setCi n).mem = s.mem := rfl
@[simp] theorem setCi_dout (s : State) (n : Nat) : (s.setCi n).dout = s.dout := rfl
@[simp] theorem setCi_payload (s : State) (n : Nat) : (s.setCi n).payload = s.payload := rfl
@[simp] theorem setCi_idtr (s : State) (n : Nat) : (s.setCi n).idtr = s.idtr := rfl
@[simp] theorem setCi_status (s : State) (n : Nat) : (s.setCi n).status = s.status := rfl
@[simp] theorem setCi_fcause (s : State) (n : Nat) : (s.setCi n).fcause = s.fcause := rfl
@[simp] theorem setCi_ci (s : State) (n : Nat) : (s.setCi n).ci = n := rfl
@[simp] theorem setCi_program (s : State) (n : Nat) : (s.setCi n).program = s.program := rfl
@[simp] theorem setCi_agenda (s : State) (n : Nat) : (s.setCi n).agenda = s.agenda := rfl
@[simp] theorem setCi_consumer (s : State) (n : Nat) : (s.setCi n).consumer = s.consumer := rfl

@[simp] theorem setProgram_cfg (s : State) (p : List Cmd) : (s.setProgram p).cfg = s.cfg := rfl
@[simp] theorem setProgram_mem (s : State) (p : List Cmd) : (s.setProgram p).mem = s.mem := rfl
@[simp] theorem setProgram_dout (s : State) (p : List Cmd) : (s.setProgram p).dout = s.dout := rfl
@[simp] theorem setProgram_payload (s : State) (p : List Cmd) : (s.setProgram p).payload = s.payload := rfl
@[simp] theorem setProgram_idtr (s : State) (p : List Cmd) : (s.setProgram p).idtr = s.idtr := rfl
@[simp] theorem setProgram_status (s : State) (p : List Cmd) : (s.setProgram p).status = s.status := rfl
@[simp] theorem setProgram_fcause (s : State) (p : List Cmd) : (s.setProgram p).fcause = s.fcause := rfl
@[simp] theorem setProgram_ci (s : State) (p : List Cmd) : (s.setProgram p).ci = s.ci := rfl
@[simp] theorem setProgram_program (s : State) (p : List Cmd) : (s.setProgram p).program = p := rfl
@[simp] theorem setProgram_agenda (s : State) (p : List Cmd) : (s.setProgram p).agenda = s.agenda := rfl
@[simp] theorem setProgram_consumer (s : State) (p : List Cmd) : (s.setProgram p).consumer = s.consumer := rfl

@[simp] theorem setAgenda_cfg (s : State) (a : List Turn) : (s.setAgenda a).cfg = s.cfg := rfl
@[simp] theorem setAgenda_mem (s : State) (a : List Turn) : (s.setAgenda a).mem = s.mem := rfl
@[simp] theorem setAgenda_dout (s : State) (a : List Turn) : (s.setAgenda a).dout = s.dout := rfl
@[simp] theorem setAgenda_payload (s : State) (a : List Turn) : (s.setAgenda a).payload = s.payload := rfl
@[simp] theorem setAgenda_idtr (s : State) (a : List Turn) : (s.setAgenda a).idtr = s.idtr := rfl
@[simp] theorem setAgenda_status (s : State) (a : List Turn) : (s.setAgenda a).status = s.status := rfl
@[simp] theorem setAgenda_fcause (s : State) (a : List Turn) : (s.setAgenda a).fcause = s.fcause := rfl
@[simp] theorem setAgenda_ci (s : State) (a : List Turn) : (s.setAgenda a).ci = s.ci := rfl
@[simp] theorem setAgenda_program (s : State) (a : List Turn) : (s.setAgenda a).program = s.program := rfl
@[simp] theorem setAgenda_agenda (s : State) (a : List Turn) : (s.setAgenda a).agenda = a := rfl
@[simp] theorem setAgenda_consumer (s : State) (a : List Turn) : (s.setAgenda a).consumer = s.consumer := rfl

@[simp] theorem setConsumer_cfg (s : State) (c : Consumer) : (s.setConsumer c).cfg = s.cfg := rfl
@[simp] theorem setConsumer_mem (s : State) (c : Consumer) : (s.setConsumer c).mem = s.mem := rfl
@[simp] theorem setConsumer_dout (s : State) (c : Consumer) : (s.setConsumer c).dout = s.dout := rfl
@[simp] theorem setConsumer_payload (s : State) (c : Consumer) : (s.setConsumer c).payload = s.payload := rfl
@[simp] theorem setConsumer_idtr (s : State) (c : Consumer) : (s.setConsumer c).idtr = s.idtr := rfl
@[simp] theorem setConsumer_status (s : State) (c : Consumer) : (s.setConsumer c).status = s.status := rfl
@[simp] theorem setConsumer_fcause (s : State) (c : Consumer) : (s.setConsumer c).fcause = s.fcause := rfl
@[simp] theorem setConsumer_ci (s : State) (c : Consumer) : (s.setConsumer c).ci = s.ci := rfl
@[simp] theorem setConsumer_program (s : State) (c : Consumer) : (s.setConsumer c).program = s.program := rfl
@[simp] theorem setConsumer_agenda (s : State) (c : Consumer) : (s.setConsumer c).agenda = s.agenda := rfl
@[simp] theorem setConsumer_consumer (s : State) (c : Consumer) : (s.setConsumer c).consumer = c := rfl

end Sys2Proof.Machine.State

namespace Sys2Proof.Machine

@[simp] theorem advance_cfg (s : State) : (advance s).cfg = s.cfg := rfl
@[simp] theorem advance_mem (s : State) : (advance s).mem = s.mem := rfl
@[simp] theorem advance_dout (s : State) : (advance s).dout = s.dout := rfl
@[simp] theorem advance_payload (s : State) : (advance s).payload = s.payload := rfl
@[simp] theorem advance_idtr (s : State) : (advance s).idtr = s.idtr := rfl
@[simp] theorem advance_status (s : State) : (advance s).status = s.status := rfl
@[simp] theorem advance_fcause (s : State) : (advance s).fcause = s.fcause := rfl
@[simp] theorem advance_ci (s : State) : (advance s).ci = s.ci + 1 := rfl
@[simp] theorem advance_program (s : State) : (advance s).program = s.program := rfl
@[simp] theorem advance_agenda (s : State) : (advance s).agenda = s.agenda := rfl
@[simp] theorem advance_consumer (s : State) : (advance s).consumer = s.consumer := rfl

@[simp] theorem raiseBlockFault_cfg (f : BlockFault) (s : State) :
    (raiseBlockFault f s).cfg = s.cfg := rfl
@[simp] theorem raiseBlockFault_mem (f : BlockFault) (s : State) :
    (raiseBlockFault f s).mem = s.mem := rfl
@[simp] theorem raiseBlockFault_dout (f : BlockFault) (s : State) :
    (raiseBlockFault f s).dout = s.dout := rfl
@[simp] theorem raiseBlockFault_payload (f : BlockFault) (s : State) :
    (raiseBlockFault f s).payload = s.payload := rfl
@[simp] theorem raiseBlockFault_idtr (f : BlockFault) (s : State) :
    (raiseBlockFault f s).idtr = s.idtr := rfl
@[simp] theorem raiseBlockFault_status (f : BlockFault) (s : State) :
    (raiseBlockFault f s).status = withFault s.status := rfl
@[simp] theorem raiseBlockFault_fcause (f : BlockFault) (s : State) :
    (raiseBlockFault f s).fcause = withCause s.fcause (blockFaultCode f) := rfl
@[simp] theorem raiseBlockFault_ci (f : BlockFault) (s : State) :
    (raiseBlockFault f s).ci = s.ci + 1 := rfl
@[simp] theorem raiseBlockFault_program (f : BlockFault) (s : State) :
    (raiseBlockFault f s).program = s.program := rfl
@[simp] theorem raiseBlockFault_agenda (f : BlockFault) (s : State) :
    (raiseBlockFault f s).agenda = s.agenda := rfl
@[simp] theorem raiseBlockFault_consumer (f : BlockFault) (s : State) :
    (raiseBlockFault f s).consumer = s.consumer := rfl

@[simp] theorem blockReset_cfg (s : State) : (blockReset s).cfg = s.cfg := rfl
@[simp] theorem blockReset_mem (s : State) : (blockReset s).mem = [] := rfl
@[simp] theorem blockReset_dout (s : State) : (blockReset s).dout = none := rfl
@[simp] theorem blockReset_payload (s : State) : (blockReset s).payload = none := rfl
@[simp] theorem blockReset_idtr (s : State) : (blockReset s).idtr = none := rfl
@[simp] theorem blockReset_status (s : State) : (blockReset s).status = 0#32 := rfl
@[simp] theorem blockReset_fcause (s : State) : (blockReset s).fcause = 0#32 := rfl
@[simp] theorem blockReset_ci (s : State) : (blockReset s).ci = 0 := rfl
@[simp] theorem blockReset_program (s : State) : (blockReset s).program = s.program := rfl
@[simp] theorem blockReset_agenda (s : State) : (blockReset s).agenda = s.agenda := rfl
@[simp] theorem blockReset_consumer (s : State) : (blockReset s).consumer = s.consumer := rfl

/-- Two states that agree in every field are equal. -/
theorem State.ext_fields {s t : State} (h1 : s.cfg = t.cfg) (h2 : s.mem = t.mem) (h3 : s.dout = t.dout)
    (h4 : s.payload = t.payload) (h5 : s.idtr = t.idtr) (h6 : s.status = t.status) (h7 : s.fcause = t.fcause)
    (h8 : s.ci = t.ci) (h9 : s.program = t.program) (h10 : s.agenda = t.agenda) (h11 : s.consumer = t.consumer) : s = t := by
  cases s; cases t; simp_all

end Sys2Proof.Machine
end

