-- ==== Sys2Proof/Laws/Ops.lean ====
section
/-! SUPPORT. Slots: reading one after writing one or clearing all, and which bytes a slot write changes (20_memory.md R51-R56;
41_table_manager.md R120, R125). -/

namespace Sys2Proof.Machine

/-! ### Slot addresses -/

/-- A byte of a slot, as an offset from the base address (R52). -/
theorem slotAddrAt_byte (base : Addr) (v : Vec) (k : Nat) :
    slotAddrAt base v + BitVec.ofNat 64 k = base + BitVec.ofNat 64 (16 * v.toNat + k) := by
  have hv := v.isLt
  apply BitVec.eq_of_toNat_eq
  simp [slotAddrAt, BitVec.toNat_add, BitVec.toNat_mul]
  omega

/-- The bytes of two slots are different (R52). -/
theorem slotAddrAt_byte_ne {base : Addr} {v w : Vec} (h : v ≠ w) {i j : Nat} (hi : i < 16) (hj : j < 16) :
    (slotAddrAt base v + BitVec.ofNat 64 i).toNat ≠ (slotAddrAt base w + BitVec.ofNat 64 j).toNat := by
  intro e
  rw [slotAddrAt_byte, slotAddrAt_byte] at e
  have hv := v.isLt
  have hw := w.isLt
  have := addr_inj (by omega) (by omega) (BitVec.eq_of_toNat_eq e)
  exact h (BitVec.eq_of_toNat_eq (by omega))

/-- The bytes of two slots of the table are different (R52). -/
theorem slotAddr_byte_ne {c : Config} {v w : Vec} (h : v ≠ w) {i j : Nat} (hi : i < 16) (hj : j < 16) :
    (slotAddr c v + BitVec.ofNat 64 i).toNat ≠ (slotAddr c w + BitVec.ofNat 64 j).toNat := by
  unfold slotAddr
  exact slotAddrAt_byte_ne h hi hj

/-- An offset below 4096 from the base address lies in the table, and no other address does (R53). -/
theorem inTable_iff {c : Config} {a : Addr} :
    inTable c a = true ↔ ∃ n, n < 4096 ∧ a = tableBase c + BitVec.ofNat 64 n := by
  simp only [inTable, decide_eq_true_eq]
  constructor
  · intro h
    refine ⟨_, h, ?_⟩
    rw [BitVec.ofNat_toNat, BitVec.setWidth_eq, add_sub_cancel]
  · rintro ⟨n, hn, rfl⟩
    rw [BitVec.add_comm, BitVec.add_sub_cancel, BitVec.toNat_ofNat]
    omega

/-- Every byte of a slot lies in the table (R53). -/
theorem inTable_slot (c : Config) (v : Vec) {k : Nat} (hk : k < 16) :
    inTable c (slotAddr c v + BitVec.ofNat 64 k) = true := by
  have hv := v.isLt
  exact inTable_iff.2 ⟨16 * v.toNat + k, by omega, slotAddrAt_byte _ _ _⟩

/-! ### Reading a slot after writing one -/

/-- A slot is the 16 bytes at its address (R24). -/
theorem readSlot_eq (c : Config) (m : Memory) (v : Vec) :
    readSlot c m v = (memRead m (slotAddr c v) 16).map (BitVec.ofNat 128) := rfl

/-- Where nothing is written every slot is `⊥` (R35). -/
@[simp] theorem readSlot_nil (c : Config) (v : Vec) : readSlot c [] v = none := rfl

/-- The slot written reads as written (R61, R120). -/
theorem readSlot_writeSlot_same (c : Config) (m : Memory) (v : Vec) (d : Desc) :
    readSlot c (writeSlot c m v d) v = some d := by
  have hd : d.toNat < 256 ^ 16 := d.isLt.trans_eq (by norm_num)
  have h : memRead (writeSlot c m v d) (slotAddr c v) 16 = some d.toNat :=
    memRead_memWrite_same m (slotAddr c v) (by norm_num) hd
  rw [readSlot_eq, h, Option.map_some, BitVec.ofNat_toNat, BitVec.setWidth_eq]

/-- A byte outside the slot written stays. -/
theorem readByte_writeSlot_other (c : Config) (m : Memory) (v : Vec) (d : Desc) {x : Nat} (hx : x < 2 ^ 64)
    (h : ∀ k, k < 16 → x ≠ (slotAddr c v + BitVec.ofNat 64 k).toNat) :
    readByte (writeSlot c m v d) x = readByte m x :=
  readByte_memWrite_other m hx h

/-- Every other slot stays (R120). -/
theorem readSlot_writeSlot_other (c : Config) (m : Memory) {v w : Vec} (d : Desc) (h : w ≠ v) :
    readSlot c (writeSlot c m v d) w = readSlot c m w := by
  have e : memRead (writeSlot c m v d) (slotAddr c w) 16 = memRead m (slotAddr c w) 16 :=
    memRead_congr fun i hi => readByte_writeSlot_other c m v d (BitVec.isLt _) fun k hk => slotAddr_byte_ne h hi hk
  rw [readSlot_eq, readSlot_eq, e]

/-- Byte `k` of the slot written is bits `8k+7` to `8k` of the descriptor (R51). -/
theorem readByte_writeSlot_at (c : Config) (m : Memory) (v : Vec) (d : Desc) {k : Nat} (hk : k < 16) :
    readByte (writeSlot c m v d) (slotAddr c v + BitVec.ofNat 64 k).toNat = some (d.extractLsb' (8 * k) 8) := by
  rw [writeSlot, readByte_memWrite_at _ _ (by omega) hk]
  congr 1
  apply BitVec.eq_of_toNat_eq
  rw [BitVec.toNat_ofNat, BitVec.extractLsb'_toNat, Nat.shiftRight_eq_div_pow, show (256 : Nat) = 2 ^ 8 by rfl, ← Nat.pow_mul]

/-- Writing a slot keeps the canonical form. -/
theorem writeSlot_wf {c : Config} {m : Memory} (h : Memory.wf m) (v : Vec) (d : Desc) : Memory.wf (writeSlot c m v d) :=
  memWrite_wf h _ _ _

/-! ### Clearing the table -/

/-- After CLRALL every slot holds `NPDESC` (R125). -/
theorem readSlot_clearTable (c : Config) (m : Memory) (v : Vec) : readSlot c (clearTable c m) v = some npDesc := by
  have hv := v.isLt
  have hb : readBytes (clearTable c m) (slotAddr c v) (bytesOf 16 npDesc.toNat).length = some (bytesOf 16 npDesc.toNat) :=
    readBytes_eq fun k hk => by
      have hk' : k < 16 := by simpa using hk
      have h := repeatBytes_getElem? 256 (bytesOf 16 npDesc.toNat) (v := v.toNat) hv hk
      rw [bytesOf_length] at h
      rw [← h, slotAddr, slotAddrAt_byte, clearTable, readByte_writeBytes_at m (by simp; omega) (by simp)]
  rw [bytesOf_length] at hb
  rw [readSlot_eq, memRead, hb]
  decide

/-- CLRALL leaves every byte outside the table alone (R50). -/
theorem readByte_clearTable_other (c : Config) (m : Memory) {a : Addr} (h : inTable c a = false) :
    readByte (clearTable c m) a.toNat = readByte m a.toNat := by
  refine readByte_writeBytes_other m a.isLt fun i hi e => ?_
  have hi' : i < 4096 := by simpa using hi
  rw [inTable_iff.2 ⟨i, hi', BitVec.eq_of_toNat_eq e⟩] at h
  cases h

/-- CLRALL keeps the canonical form. -/
theorem clearTable_wf {c : Config} {m : Memory} (h : Memory.wf m) : Memory.wf (clearTable c m) := writeBytes_wf h _ _

/-! ### The bits of STATUS and FCAUSE -/

@[simp] theorem faultBit_withFault (v : BitVec 32) : faultBit (withFault v) = true := by simp [faultBit, withFault]
@[simp] theorem activeBit_withFault (v : BitVec 32) : activeBit (withFault v) = activeBit v := by simp [activeBit, withFault]
@[simp] theorem faultBit_withActive (v : BitVec 32) : faultBit (withActive v) = faultBit v := by simp [faultBit, withActive]
@[simp] theorem activeBit_withActive (v : BitVec 32) : activeBit (withActive v) = true := by simp [activeBit, withActive]

/-- The code written is the code read back. -/
@[simp] theorem causeCode_withCause (v : BitVec 32) (code : BitVec 4) : causeCode (withCause v code) = code := by
  apply BitVec.eq_of_getLsbD_eq
  intro i hi
  interval_cases i <;> simp [causeCode, withCause]

/-! ### What the shared operations can do -/

/-- A command that is taken answers its effect (R170). -/
theorem takeCommand_of_clear {s : State} {effect : State → State} (h : faultBit s.status = false) :
    takeCommand s effect = .next (effect s) := by
  simp [takeCommand, h]

/-- A faulted block takes no command (R170). -/
theorem takeCommand_of_faulted {s : State} {effect : State → State} (h : faultBit s.status = true) :
    takeCommand s effect = .next s := by
  simp [takeCommand, h]

/-- A command always answers a next state: the state as it was when the block is faulted, else the command's effect. -/
theorem takeCommand_cases {s t : State} {effect : State → State} (h : takeCommand s effect = .next t) :
    (faultBit s.status = true ∧ t = s) ∨ (faultBit s.status = false ∧ t = effect s) := by
  cases hf : faultBit s.status
  · rw [takeCommand_of_clear hf] at h
    cases h
    exact .inr ⟨rfl, rfl⟩
  · rw [takeCommand_of_faulted hf] at h
    cases h
    exact .inl ⟨rfl, rfl⟩

/-- Entering a handler changes the consumer and nothing else: its registers, the handlers in service and its stack memory. -/
theorem enterHandler_next {v : Vec} {err : BitVec 64} {g : Gate} {s t : State} (h : enterHandler v err g s = .next t) :
    ∃ flags, entryFlags s.cfg g s.consumer.ctx.rflags = some flags ∧
      touchesTable s.cfg (entryStack s.cfg v g s.consumer.ctx) (8 * (pushedWords s.cfg v err s.consumer.ctx).length) = false ∧
      t = s.setConsumer
        { ctx := { rip := g.offset, cs := g.sel, rflags := flags, rsp := entryStack s.cfg v g s.consumer.ctx,
                   ss := s.consumer.ctx.ss }
          handlers := v :: s.consumer.handlers
          halted := s.consumer.halted
          stack := writeWords s.consumer.stack (entryStack s.cfg v g s.consumer.ctx)
            (pushedWords s.cfg v err s.consumer.ctx) } := by
  simp only [enterHandler] at h
  split at h
  · cases h
  · rename_i flags hf
    split at h
    · cases h
    · rename_i ht
      cases h
      exact ⟨flags, hf, by simpa using ht, rfl⟩

/-- A delivery that answers a next state resolved its gate and entered the handler. -/
theorem deliver_next {v : Vec} {err : BitVec 64} {s t : State} (h : deliver v err s = .next t) :
    ∃ g, resolveGate s v = .gate g ∧ enterHandler v err g s = .next t := by
  simp only [deliver] at h
  split at h
  · cases h
  · exact ⟨_, ‹_›, h⟩

/-- The double fault's delivery, likewise. -/
theorem deliverDoubleFault_next {err : BitVec 64} {s t : State} (h : deliverDoubleFault err s = .next t) :
    ∃ g, resolveGate s 8#8 = .gate g ∧ enterHandler 8#8 err g s = .next t := by
  simp only [deliverDoubleFault] at h
  split at h
  · cases h
  · exact ⟨_, ‹_›, h⟩

/-- The trap return restores the registers a frame holds and ends the handler, and changes nothing else. -/
theorem returnFromTrap_next {v : Vec} {outer : List Vec} {s t : State} (h : returnFromTrap v outer s = .next t) :
    ∃ words ctx, readWords s.consumer.stack (frameAddr s.cfg v s.consumer.ctx.rsp) 5 = some words ∧
      contextOfFrame words = some ctx ∧ t = s.setConsumer { s.consumer with ctx := ctx, handlers := outer } := by
  simp only [returnFromTrap] at h
  split at h
  · cases h
  · split at h
    · cases h
    · cases h
      exact ⟨_, _, ‹_›, ‹_›, rfl⟩

end Sys2Proof.Machine
end

