-- ==== Sys2Proof/Laws/PerInstr.lean ====
section
/-! SUPPORT. The command word of each instruction: its bits, its opcode field, and the bits that must be zero
(30_encoding.md R80, R84, R85). -/

namespace Sys2Proof.Laws.CommandWord

/-- The word of an instruction carries the instruction's opcode and none of its must-be-zero bits. -/
def Statement (i : Instr) : Prop :=
  opcodeOf (opField (encode i)) = some i.opcode ∧ encode i &&& mbz i.opcode = 0#96

/-- Every bit of a word made from fields (R80). -/
theorem getLsbD_cmdWord (op : Opcode) (vec : Vec) (ist : Ist) (handler : Addr) (i : Nat) :
    (cmdWord op vec ist handler).getLsbD i =
      if i < 4 then (opcodeBits op).getLsbD i
      else if i < 7 then ist.getLsbD (i - 4)
      else if i < 8 then false
      else if i < 16 then vec.getLsbD (i - 8)
      else if i < 32 then false
      else handler.getLsbD (i - 32) := by
  unfold cmdWord
  rw [BitVec.getLsbD_append, BitVec.getLsbD_append, BitVec.getLsbD_append, BitVec.getLsbD_append, BitVec.getLsbD_append]
  have h3 : i - 4 < 3 ↔ i < 7 := by omega
  have h1 : i - 4 - 3 < 1 ↔ i < 8 := by omega
  have h8 : i - 8 < 8 ↔ i < 16 := by omega
  have h16 : i - 8 - 8 < 16 ↔ i < 32 := by omega
  simp only [h3, h1, h8, h16, BitVec.getLsbD_zero, show i - 4 - 3 - 1 = i - 8 by omega,
    show i - 8 - 8 - 16 = i - 32 by omega]

/-- The opcode field of a word made from fields. -/
theorem opField_cmdWord (op : Opcode) (vec : Vec) (ist : Ist) (handler : Addr) :
    opField (cmdWord op vec ist handler) = opcodeBits op := by
  unfold opField cmdWord
  exact BitVec.extractLsb'_append_eq_right

/-- Every opcode's number selects it. -/
theorem opcodeOf_opcodeBits (op : Opcode) : opcodeOf (opcodeBits op) = some op := by
  cases op <;> decide

theorem enc (ist : Ist) (handler : Addr) : Statement (.enc ist handler) := by
  refine ⟨by rw [encode, opField_cmdWord, opcodeOf_opcodeBits]; rfl, BitVec.eq_of_getLsbD_eq fun i hi => ?_⟩
  rw [BitVec.getLsbD_and, encode, getLsbD_cmdWord]
  interval_cases i <;> simp [mbz, Instr.opcode]

theorem setgate (vec : Vec) (ist : Ist) (handler : Addr) : Statement (.setgate vec ist handler) := by
  refine ⟨by rw [encode, opField_cmdWord, opcodeOf_opcodeBits]; rfl, BitVec.eq_of_getLsbD_eq fun i hi => ?_⟩
  rw [BitVec.getLsbD_and, encode, getLsbD_cmdWord]
  interval_cases i <;> simp [mbz, Instr.opcode]

theorem clrall : Statement .clrall := by
  unfold Statement
  decide

theorem rdslot (vec : Vec) : Statement (.rdslot vec) := by
  refine ⟨by rw [encode, opField_cmdWord, opcodeOf_opcodeBits]; rfl, BitVec.eq_of_getLsbD_eq fun i hi => ?_⟩
  rw [BitVec.getLsbD_and, encode, getLsbD_cmdWord]
  interval_cases i <;> simp [mbz, Instr.opcode]

theorem load : Statement .load := by
  unfold Statement
  decide

end Sys2Proof.Laws.CommandWord
end

