-- ==== Sys2Proof/Laws/Step.lean ====
section
/-! SUPPORT. What a command, the block, the consumer and a step can do: the inversion lemmas that proofs about steps cite. -/

namespace Sys2Proof.Machine

/-! ### Commands -/

@[simp] theorem activate_cfg (s : State) : (activate s).cfg = s.cfg := rfl
@[simp] theorem activate_mem (s : State) : (activate s).mem = s.mem := rfl
@[simp] theorem activate_dout (s : State) : (activate s).dout = s.dout := rfl
@[simp] theorem activate_payload (s : State) : (activate s).payload = none := rfl
@[simp] theorem activate_idtr (s : State) : (activate s).idtr = some (payloadOf (tableBase s.cfg)) := rfl
@[simp] theorem activate_status (s : State) : (activate s).status = withActive s.status := rfl
@[simp] theorem activate_fcause (s : State) : (activate s).fcause = s.fcause := rfl
@[simp] theorem activate_ci (s : State) : (activate s).ci = s.ci := rfl
@[simp] theorem activate_program (s : State) : (activate s).program = s.program := rfl
@[simp] theorem activate_agenda (s : State) : (activate s).agenda = s.agenda := rfl
@[simp] theorem activate_consumer (s : State) : (activate s).consumer = s.consumer := rfl

/-- The one state check of a command, as the block fault it raises (R172). -/
def stateFault (i : Instr) (s : State) : Option BlockFault :=
  match i with
  | .enc _ _ => none
  | .setgate _ _ _ => if activeBit s.status then some .writeAfterActivate else none
  | .clrall => if activeBit s.status then some .writeAfterActivate else none
  | .rdslot vec => if readSlot s.cfg s.mem vec = none then some .uninitRead else none
  | .load => if activeBit s.status then some .reactivate else none

/-- The effect of a command whose state check passes, but for `CI` (R105, R120, R125, R130, R150). -/
def commandEffect (i : Instr) (s : State) : State :=
  match i with
  | .enc ist handler => s.setDout (some (encodeGate handler ist s.cfg.kcodeSel))
  | .setgate vec ist handler => s.setMem (writeSlot s.cfg s.mem vec (encodeGate handler ist s.cfg.kcodeSel))
  | .clrall => s.setMem (clearTable s.cfg s.mem)
  | .rdslot vec => s.setDout (readSlot s.cfg s.mem vec)
  | .load => activate s

/-- Everything a command can do: nothing when the block is faulted, one block fault, or its effect. -/
theorem exec_eq (i : Instr) (s : State) :
    exec i s = .next (if faultBit s.status then s else
      match stateFault i s with
      | some f => raiseBlockFault f s
      | none => advance (commandEffect i s)) := by
  cases i with
  | enc ist handler => rfl
  | setgate vec ist handler =>
    simp only [exec, execSetgate, takeCommand, stateFault, commandEffect]
    cases activeBit s.status <;> rfl
  | clrall =>
    simp only [exec, execClrall, takeCommand, stateFault, commandEffect]
    cases activeBit s.status <;> rfl
  | rdslot vec =>
    simp only [exec, execRdslot, takeCommand, stateFault, commandEffect]
    cases h : readSlot s.cfg s.mem vec <;> simp
  | load =>
    simp only [exec, execLoad, takeCommand, stateFault, commandEffect]
    cases activeBit s.status <;> rfl

/-- A command always answers a next state. -/
theorem exec_answers (i : Instr) (s : State) : ∃ t, exec i s = .next t := ⟨_, exec_eq i s⟩

/-- The three cases of a command. -/
theorem exec_next {i : Instr} {s t : State} (h : exec i s = .next t) :
    (faultBit s.status = true ∧ t = s) ∨
    (faultBit s.status = false ∧ ∃ f, stateFault i s = some f ∧ t = raiseBlockFault f s) ∨
    (faultBit s.status = false ∧ stateFault i s = none ∧ t = advance (commandEffect i s)) := by
  rw [exec_eq] at h
  cases h
  cases hf : faultBit s.status
  · cases hs : stateFault i s
    · exact .inr (.inr ⟨rfl, rfl, by simp⟩)
    · exact .inr (.inl ⟨rfl, _, rfl, by simp⟩)
  · exact .inl ⟨rfl, by simp⟩

/-- What the block's turn can do: nothing (no next word, or faulted), a command, or the decoder's block fault. -/
theorem blockStep_next {s t : State} (h : blockStep s = .next t) :
    t = s ∨ (∃ i, exec i s = .next t) ∨ (faultBit s.status = false ∧ ∃ f, t = raiseBlockFault f s) := by
  simp only [blockStep] at h
  split at h
  · cases h
    exact .inl rfl
  · simp only [takeWord] at h
    split at h
    · exact .inr (.inl ⟨_, h⟩)
    · rcases takeCommand_cases h with ⟨_, rfl⟩ | ⟨hf, rfl⟩
      · exact .inl rfl
      · exact .inr (.inr ⟨hf, _, rfl⟩)

/-- The block never stops: its turn always answers a next state. -/
theorem blockStep_answers (s : State) : ∃ t, blockStep s = .next t := by
  simp only [blockStep]
  split
  · exact ⟨_, rfl⟩
  · simp only [takeWord]
    split
    · exact exec_answers _ _
    · exact ⟨_, rfl⟩

/-! ### The consumer -/

/-- A failed delivery goes on only when the trap is not the double fault, its own gate resolves, and vector 8's gate resolves and
is entered (R191). -/
theorem failDelivery_next {v : Vec} {err : BitVec 64} {s t : State} (h : failDelivery v err s = .next t) :
    v ≠ 8#8 ∧ (∃ g, resolveGate s v = .gate g) ∧ ∃ g, resolveGate s 8#8 = .gate g ∧ enterHandler 8#8 err g s = .next t := by
  simp only [failDelivery] at h
  split at h
  · cases h
  · split at h
    · cases h
    · exact ⟨‹_›, ⟨_, ‹_›⟩, deliverDoubleFault_next h⟩

/-- Every next state of the consumer differs from the state before in the consumer alone (R57, R59). -/
theorem consumerStep_next {e : ConsumerEvent} {s t : State} (h : consumerStep e s = .next t) :
    t = s.setConsumer t.consumer := by
  have enter : ∀ {v err g}, enterHandler v err g s = .next t → t = s.setConsumer t.consumer := fun h => by
    obtain ⟨_, _, _, rfl⟩ := enterHandler_next h
    rfl
  have del : ∀ {v err}, deliver v err s = .next t → t = s.setConsumer t.consumer := fun h => by
    obtain ⟨_, _, h⟩ := deliver_next h
    exact enter h
  simp only [consumerStep] at h
  split at h
  · cases h
  · cases e with
    | runs ctx =>
      simp only [runCode] at h
      split at h
      · cases h; rfl
      · cases h
    | trap source v err =>
      cases source with
      | exception => exact del h
      | external =>
        simp only [takeTrap, takeExternal] at h
        split at h
        · exact del h
        · cases h; rfl
      | software =>
        simp only [takeTrap, takeSoftware] at h
        split at h
        · cases h
        · split at h
          · exact del h
          · exact del h
    | deliveryFails v err =>
      obtain ⟨_, _, _, _, h⟩ := failDelivery_next h
      exact enter h
    | handlerEnds =>
      simp only [endHandler] at h
      split at h
      · cases h
      · split at h
        · cases h; rfl
        · obtain ⟨_, _, _, _, rfl⟩ := returnFromTrap_next h
          rfl

/-! ### A step -/

/-- What a step can do: the block's turn, the consumer's turn, or a reset. -/
theorem step_next {s t : State} (h : step s = .next t) :
    (s.agenda = [] ∧ blockStep s = .next t) ∨
    (∃ rest, s.agenda = .block :: rest ∧ blockStep (s.setAgenda rest) = .next t) ∨
    (∃ e rest, s.agenda = .consumer e :: rest ∧ consumerStep e (s.setAgenda rest) = .next t) ∨
    (∃ rest, s.agenda = .reset :: rest ∧ t = blockReset (s.setAgenda rest)) := by
  simp only [step] at h
  split at h
  · exact .inl ⟨‹_›, h⟩
  · exact .inr (.inl ⟨_, ‹_›, h⟩)
  · exact .inr (.inr (.inl ⟨_, _, ‹_›, h⟩))
  · cases h
    exact .inr (.inr (.inr ⟨_, ‹_›, rfl⟩))

end Sys2Proof.Machine
end

