-- ==== Sys2Proof/Tests/Slice0.lean ====
section
/-! SUPPORT. Tests on the spec's worked examples (95_test_vectors.md; the vector's name stands at each test), and a witness for
the hypotheses of each obligation that has some. Expected values are the spec's. -/

namespace Sys2Proof.Tests

open Sys2Proof.Machine

/-! ### Helpers -/

/-- Reset under the example configuration (R11). -/
def boot : State := State.resetWith Config.sample

/-- The next state, if there is one. -/
def next? (o : Host.Outcome State Fault Refusal) : Option State :=
  match o with
  | .next s => some s
  | .fault _ => none
  | .refused _ => none

/-- The fault, if there is one. -/
def fault? (o : Host.Outcome State Fault Refusal) : Option Fault :=
  match o with
  | .next _ => none
  | .fault f => some f
  | .refused _ => none

/-- The refusal, if there is one. -/
def refusal? (o : Host.Outcome State Fault Refusal) : Option Refusal :=
  match o with
  | .next _ => none
  | .fault _ => none
  | .refused r => some r

/-- The state after a command, or the state before where there is none. -/
def after (i : Instr) (s : State) : State := (next? (exec i s)).getD s

/-- After TV1: `setgate 8, 0x201000, 1`. -/
def slot8 : State := after (.setgate 8#8 1#3 0x201000#64) boot

/-- After TV1 and `load`. -/
def active8 : State := after .load slot8

/-- A faulted block: after TV9. -/
def faulted : State := after (.rdslot 7#8) boot

/-- A kernel stack for the consumer. -/
def ctx0 : Context := { rip := 0x202468#64, cs := 0x0008#16, rflags := 0x202#64, rsp := 0x600000#64, ss := 0x0010#16 }

/-- After TV1 and `load`, with the consumer running on that stack. -/
def running : State := active8.setConsumer { active8.consumer with ctx := ctx0 }

/-- The same with a gate for vector 14 and none for the double fault. -/
def running14 : State :=
  (after .load (after (.setgate 14#8 0#3 0x201400#64) boot)).setConsumer { boot.consumer with ctx := ctx0 }

/-- The same with a gate for each. -/
def runningBoth : State :=
  (after .load (after (.setgate 14#8 0#3 0x201400#64) slot8)).setConsumer { boot.consumer with ctx := ctx0 }

/-! ### Well-formedness (R89) -/

theorem test_wf_accepts : (Asm.setgate 255 0xFFFFFFFFFFFFFFFF 7).wellFormed = true := by decide
theorem test_wf_refuses_ist : (Asm.enc 0x1000 8).wellFormed = false := by decide
theorem test_wf_refuses_vec : (Asm.rdslot 256).wellFormed = false := by decide
theorem test_wf_refuses_handler : (Asm.setgate 8 0x10000000000000000 1).wellFormed = false := by decide
theorem test_wf_refuses_population : (Asm.idtInit 0 0 0 0 0 0x10000000000000000).wellFormed = false := by decide

/-! ### Command words: EV12, TV1, TV3, TV4, TV7, LV1, P3 and FV1 to FV8 -/

theorem test_decode_enc : decode 0x000000000000100000000011#96 = .command (.enc 1#3 0x1000#64) := by decide
theorem test_decode_enc_ones :
    decode 0xFFFFFFFFFFFFFFFF00000071#96 = .command (.enc 7#3 0xFFFFFFFFFFFFFFFF#64) := by decide
theorem test_decode_setgate :
    decode 0x000000000020100000000812#96 = .command (.setgate 8#8 1#3 0x201000#64) := by decide
theorem test_decode_setgate_last : decode 0x00000000000010000000FF02#96 = .command (.setgate 255#8 0#3 0x1000#64) := by decide
theorem test_decode_clrall : decode 0x000000000000000000000003#96 = .command .clrall := by decide
theorem test_decode_rdslot : decode 0x000000000000000000000804#96 = .command (.rdslot 8#8) := by decide
theorem test_decode_load : decode 0x000000000000000000000005#96 = .command .load := by decide
theorem test_decode_zero : decode 0x000000000000000000000000#96 = .blockFault .illegalOp := by decide
theorem test_decode_six : decode 0x000000000000000000000006#96 = .blockFault .illegalOp := by decide
theorem test_decode_ones : decode 0xFFFFFFFFFFFFFFFFFFFFFFFF#96 = .blockFault .illegalOp := by decide
theorem test_decode_enc_vec : decode 0x000000000000100000000111#96 = .blockFault .rsvdBits := by decide
theorem test_decode_setgate_rsv0 : decode 0x000000000020100000000892#96 = .blockFault .rsvdBits := by decide
theorem test_decode_setgate_rsv1 : decode 0x000000000020100000010812#96 = .blockFault .rsvdBits := by decide
theorem test_decode_clrall_handler : decode 0x000000000000000100000003#96 = .blockFault .rsvdBits := by decide
theorem test_decode_load_ist : decode 0x000000000000000000000015#96 = .blockFault .rsvdBits := by decide
theorem test_encode_setgate : encode (.setgate 200#8 0#3 0xFFFF800000000000#64) = 0xFFFF8000000000000000C802#96 := by decide
theorem test_encode_enc : encode (.enc 3#3 0x0123456789ABCDEF#64) = 0x0123456789ABCDEF00000031#96 := by decide

/-- `match` and `mask` of the opcode table's rows. -/
def rows : List (Cmd × Cmd) :=
  [(0x1#96, 0x0000000000000000FFFFFF8F#96), (0x2#96, 0x0000000000000000FFFF008F#96),
    (0x3#96, 0xFFFFFFFFFFFFFFFFFFFFFFFF#96), (0x4#96, 0xFFFFFFFFFFFFFFFFFFFF00FF#96),
    (0x5#96, 0xFFFFFFFFFFFFFFFFFFFFFFFF#96)]

/-- No word matches two rows: two rows differ in a bit that both masks fix. -/
theorem test_rows_disjoint : rows.Pairwise (fun a b => (a.1 ^^^ b.1) &&& a.2 &&& b.2 ≠ 0#96) := by decide

/-- The table's words decode to their rows' commands. -/
theorem test_table_words : [1, 2, 3, 4, 5, 0, 6].map (decodeTableWord 96) =
    [some (.enc 0#3 0#64), some (.setgate 0#8 0#3 0#64), some .clrall, some (.rdslot 0#8), some .load, none, none] := by decide

/-! ### The assembler (R89, R90; P1) -/

theorem test_assemble_line : (parseLine "setgate 8, 0x201000, 1").bind (assemble Config.sample) =
    some [0x000000000020100000000812#96] := by decide
theorem test_assemble_decimal : (parseLine "  enc 4096,1 ").bind (assemble Config.sample) =
    some [0x000000000000100000000011#96] := by decide
theorem test_assemble_init :
    (parseLine "idt_init 0x201000, 0x201100, 0x201200, 0x201300, 0x201400, 0x201500").bind (assemble Config.sample) =
    some [0x000000000000000000000003#96, 0x000000000020100000000812#96, 0x000000000020110000000B02#96,
      0x000000000020120000000C02#96, 0x000000000020130000000D02#96, 0x000000000020140000000E02#96,
      0x000000000020150000002102#96, 0x000000000000000000000005#96] := by decide
theorem test_assemble_refuses : (parseLine "rdslot 256").bind (assemble Config.sample) = none := by decide
theorem test_parse_refuses : parseLine "SETGATE 8" = none := by decide

/-! ### The Descriptor Encoder: EV3, EV4, EV6, EV9, EV10, EV11 -/

theorem test_gate_ones : encodeGate 0xFFFFFFFFFFFFFFFF#64 7#3 0x0008#16 = 0x00000000FFFFFFFFFFFF8E070008FFFF#128 := by decide
theorem test_gate_fields : encodeGate 0x0123456789ABCDEF#64 3#3 0x0008#16 = 0x000000000123456789AB8E030008CDEF#128 := by decide
theorem test_gate_low_half : encodeGate 0x00007FFFFFFFFFFF#64 2#3 0x0008#16 = 0x0000000000007FFFFFFF8E020008FFFF#128 := by decide
theorem test_gate_mid : encodeGate 0x10000#64 6#3 0x0000#16 = 0x000000000000000000018E0600000000#128 := by decide
theorem test_gate_high : encodeGate 0x100000000#64 4#3 0x0010#16 = 0x000000000000000100008E0400100000#128 := by decide
theorem test_gate_selector : encodeGate 0x1000#64 1#3 0xFFFF#16 = 0x000000000000000000008E01FFFF1000#128 := by decide
theorem test_gate_decode : decodeGate 0x000000000123456789AB8E030008CDEF#128 =
    { offset := 0x0123456789ABCDEF#64, sel := 0x0008#16, ist := 3#3, rsvIst := 0#5, attr := 0x8E#8, gateType := 0xE#4,
      dpl := 0#2, present := 1#1, rsvHi := 0#32 } := by decide
theorem test_npDesc_bytes : bytesOf 16 npDesc.toNat = [0, 0, 0, 0, 0, 0x0E, 0, 0, 0, 0, 0, 0, 0, 0, 0, 0] := by decide

/-! ### ENC: EV12, EV13 -/

theorem test_enc : let t := after (.enc 1#3 0x1000#64) boot
    (t.dout, t.ci, t.status, t.mem) = (some 0x000000000000000000008E0100081000#128, 1, 0#32, []) := by decide
theorem test_enc_after_load : let t := after (.enc 1#3 0x1000#64) active8
    (t.dout, t.status) = (some 0x000000000000000000008E0100081000#128, 1#32) := by decide

/-! ### SETGATE: TV1, TV2, TV3, TV10, LV4 -/

/-- The bytes of TV1 at `0x300080`. -/
theorem test_setgate_bytes : readBytes slot8.mem 0x300080#64 16 =
    some [0x00, 0x10, 0x08, 0x00, 0x01, 0x8E, 0x20, 0, 0, 0, 0, 0, 0, 0, 0, 0] := by decide
theorem test_setgate_overwrites : let t := after (.setgate 8#8 0#3 0x201100#64) slot8
    (readSlot t.cfg t.mem 8#8, readSlot t.cfg t.mem 7#8) = (some 0x000000000000000000208E0000081100#128, none) := by decide

/-- TV3: the last bytes of the table. -/
theorem test_setgate_last : (after (.setgate 255#8 0#3 0x1000#64) boot).mem.map Prod.fst = List.range' 0x300FF0 16 := by decide
theorem test_setgate_active : let t := after (.setgate 14#8 0#3 0x201400#64) active8
    (t.fcause, t.status, t.mem == active8.mem, t.ci) = (4#32, 3#32, true, 3) := by decide

/-- LV4: a base that is not a multiple of 16. -/
theorem test_setgate_unaligned :
    (after (.setgate 1#8 0#3 0x1000#64)
      (State.resetWith { Config.sample with tableBaseNat := 0x300008 })).mem.map Prod.fst = List.range' 0x300018 16 := by decide

/-! ### CLRALL: TV4, TV5, TV11 -/

/-- TV4, TV5: every slot is `NPDESC`, the slot SETGATE wrote among them. -/
theorem test_clrall (v : Vec) : exec .clrall slot8 = .next (after .clrall slot8) ∧
    readSlot slot8.cfg (after .clrall slot8).mem v = some 0x000000000000000000000E0000000000#128 := by
  have h : exec .clrall slot8 = .next (advance (slot8.setMem (clearTable slot8.cfg slot8.mem))) := by rfl
  have ha : after .clrall slot8 = advance (slot8.setMem (clearTable slot8.cfg slot8.mem)) := by rw [after, h]; rfl
  rw [h, ha]
  exact ⟨rfl, readSlot_clearTable slot8.cfg slot8.mem v⟩
theorem test_clrall_active : let t := after .clrall active8
    (t.fcause, t.status, t.mem == active8.mem) = (4#32, 3#32, true) := by decide

/-! ### RDSLOT: TV7, TV9, TV12, FV9 -/

theorem test_rdslot : (after (.rdslot 8#8) slot8).dout = some 0x000000000000000000208E0100081000#128 := by decide
theorem test_rdslot_unwritten :
    (faulted.status, faulted.fcause, faulted.ci, faulted.dout) = (2#32, 3#32, 1, none) := by decide

/-! ### LOAD: LV1, LV2, LV3 -/

theorem test_load : let t := after .load boot
    (t.idtr, t.status, t.payload, t.mem) = (some 0x00000000003000000FFF#80, 1#32, none, []) := by decide
theorem test_load_twice : let t := after .load (after .load boot)
    (t.status, t.fcause, t.ci, t.idtr) = (3#32, 5#32, 2, some 0x00000000003000000FFF#80) := by decide

/-- LV3: the highest base. -/
theorem test_load_highest :
    (after .load (State.resetWith { Config.sample with tableBaseNat := 0xFFFFFFFFFFFFF000 })).idtr =
      some 0xFFFFFFFFFFFFF0000FFF#80 := by decide

/-- LV1: the 10-byte image of the payload. -/
theorem test_payload_image : bytesOf 10 (payloadOf 0x300000#64).toNat =
    [0xFF, 0x0F, 0x00, 0x00, 0x30, 0x00, 0x00, 0x00, 0x00, 0x00] := by decide

/-! ### Steps and block faults: FV1, FV10, FV11 -/

/-- FV1: the all-zero word. -/
theorem test_step_zero : (next? (step (boot.withFetchWord 96 0))).map (fun t => (t.status, t.fcause, t.ci)) =
    some (2#32, 1#32, 1) := by decide

/-- FV11: reserved bits are checked before the state. -/
theorem test_step_load_ist : (next? (step (active8.withFetchWord 96 0x15))).map (fun t => (t.status, t.fcause)) =
    some (3#32, 2#32) := by decide

/-- FV10: a faulted block takes no word. -/
theorem test_step_faulted : next? (step (faulted.withFetchWord 96 5)) = some (faulted.withFetchWord 96 5) := by decide
theorem test_step_fetch : (next? (step (active8.withFetchWord 96 0x804))).map (fun t => (t.dout, t.ci)) =
    some (some 0x000000000000000000208E0100081000#128, 3) := by decide

/-- From the platform's reset each row's command completes, but for RDSLOT of an unwritten slot (TV9), which faults with code 3. -/
theorem test_reset_runs_rows : [1, 2, 3, 4, 5].map (fun w =>
    (next? (step (State.reset.withFetchWord 96 w))).map fun t => (t.ci, t.fcause)) =
    [some (1, 0#32), some (1, 0#32), some (1, 0#32), some (1, 3#32), some (1, 0#32)] := by decide

/-- R170: reset leaves the phase FAULTED. -/
theorem test_step_reset : (next? (step (faulted.setAgenda [.reset]))).map (fun t => (phaseOf t.status, t.ci)) =
    some (.populating, 0) := by decide
theorem test_port : (readPort active8 0, readPort boot 2, readPort boot 3, readPort active8 4) =
    (.bits32 1#32, .unwritten, .unwritten, .noRegister) := by decide

/-! ### The consumer: GV1, GV3, GV5, GV6, GV7, W8 -/

/-- GV1. -/
theorem test_lookup_before_load : gateLookup boot 8#8 = .fault .beforeLoad := by decide

/-- GV3. -/
theorem test_lookup_double_fault :
    gateLookup active8 8#8 = .gate (decodeGate 0x000000000000000000208E0100081000#128) := by decide

/-- GV5. -/
theorem test_lookup_not_present (v : Vec) : gateLookup (after .load (after .clrall boot)) v = .fault .notPresent := by
  have hv := v.isLt
  have h : readSlotAt (after .load (after .clrall boot)).mem (tableBase Config.sample) v = some npDesc :=
    readSlot_clearTable _ _ v
  have hb : baseField (payloadOf (tableBase Config.sample)) = tableBase Config.sample := by decide
  have hl : (limitField (payloadOf (tableBase Config.sample))).toNat = 4095 := by decide
  have hi : (after .load (after .clrall boot)).idtr = some (payloadOf (tableBase Config.sample)) := rfl
  simp only [gateLookup, hi]
  rw [hl, hb, h, if_neg (by omega)]
  decide

/-- GV6. -/
theorem test_lookup_unwritten : gateLookup active8 0#8 = .fault .unwritten := by decide

/-- GV7. -/
theorem test_bad_handler :
    fault? (deliver 13#8 0#64 (after .load (after (.setgate 13#8 0#3 0x301300#64) boot))) = some .badHandler := by decide

/-- W8: the double fault switches to alternate stack 1 and pushes the error code and the frame. -/
theorem test_enter_double_fault :
    (next? (consumerStep (.trap .exception 8#8 0xEE#64) running)).map (fun t =>
      (t.consumer.ctx.rip, t.consumer.ctx.rsp, t.consumer.ctx.rflags, readWords t.consumer.stack 0x50FFD0#64 6)) =
    some (0x201000#64, 0x50FFD0#64, 0x2#64,
      some [0xEE#64, 0x202468#64, 0x8#64, 0x202#64, 0x600000#64, 0x10#64]) := by decide

/-- W8: its handler ends halted, and the consumer has no further step. -/
theorem test_double_fault_halts :
    ((next? (deliver 8#8 0#64 running)).bind fun t => next? (endHandler t)).map (fun t =>
      (t.consumer.halted, fault? (consumerStep .handlerEnds t))) = some (true, some .halted) := by decide

/-- GV4 and R189: vector 33 pushes no error code, and its handler's return restores the interrupted context. -/
theorem test_interrupt_returns :
    let s := (after .load (after (.setgate 33#8 0#3 0x201500#64) boot)).setConsumer { boot.consumer with ctx := ctx0 }
    ((next? (consumerStep (.trap .external 33#8 0#64) s)).map fun t => (t.consumer.ctx.rsp, t.consumer.handlers)) =
      some (0x5FFFD8#64, [33#8]) ∧
    (((next? (consumerStep (.trap .external 33#8 0#64) s)).bind fun t => next? (consumerStep .handlerEnds t)).map fun t =>
      t.consumer.ctx) = some ctx0 := by decide

/-- R191. -/
theorem test_delivery_failure : (fault? (failDelivery 8#8 0#64 running), fault? (failDelivery 14#8 0#64 running14)) =
    (some .dfDelivery, some .dfDelivery) := by decide

/-- R181, R182: the trap's own lookup comes first. -/
theorem test_delivery_failure_lookup : (fault? (failDelivery 14#8 0#64 boot), fault? (failDelivery 14#8 0#64 running)) =
    (some .beforeLoad, some .unwritten) := by decide

/-- R59: a frame on the table is refused. -/
theorem test_stack_on_table :
    refusal? (deliver 33#8 0#64 ((after .load (after (.setgate 33#8 0#3 0x201500#64) boot)).setConsumer
      { boot.consumer with ctx := { ctx0 with rsp := 0x301010#64 } })) = some .consumerWritesTable := by decide

/-! ### Witnesses: the hypotheses of each obligation can be met together -/

/-- A command answers the state after it. -/
theorem exec_after (i : Instr) (s : State) : exec i s = .next (after i s) := by
  obtain ⟨t, h⟩ := exec_answers i s
  simp [after, h, next?]

/-- An outcome with a next state is that next state. -/
theorem eq_next {o : Host.Outcome State Fault Refusal} (h : (next? o).isSome = true) : ∃ t, o = .next t := by
  cases o with
  | next t => exact ⟨t, rfl⟩
  | fault _ => cases h
  | refused _ => cases h

/-- An active, running machine with memory `m`. -/
def loaded (m : Memory) : State :=
  { boot with
    mem := m, idtr := some (payloadOf (tableBase Config.sample)), status := 1#32, ci := 2,
    consumer := { boot.consumer with ctx := ctx0 } }

/-- It meets the invariants when its slots are legal. -/
theorem loaded_invs {m : Memory} (h : ∀ v d, readSlot Config.sample m v = some d → SlotLegal Config.sample d) :
    StepInv (loaded m) ∧ RegisterInv (loaded m) ∧ activeBit (loaded m).status = true ∧ (loaded m).consumer.halted = false :=
  ⟨{ payload := rfl
     idtr := show true = activeBit 1#32 by decide
     slots := h
     cause := show causeCode 0#32 ≠ 0#4 ↔ faultBit 1#32 = true by decide },
   { status := show 1#32 &&& 0xFFFFFFFC#32 = 0#32 by decide
     fcause := show 0#32 &&& 0xFFFFFFF0#32 = 0#32 by decide
     code := show (causeCode 0#32).toNat ≤ 5 by decide
     idtr := fun p hp => (Option.some.inj hp).symm },
   show activeBit 1#32 = true by decide, rfl⟩

/-- Its consumer takes traps of every source. -/
theorem loaded_takes (m : Memory) (source : TrapSource) : takesTrap (loaded m) source = true := by
  cases source with
  | exception => rfl
  | external => exact show interruptsEnabled Config.sample ctx0.rflags = true by decide
  | software => exact show decide (ctx0.cs = Config.sample.kcodeSel) = true by decide

/-- One slot written by SETGATE and nothing else. -/
def oneGate (v : Vec) (h : Addr) (ist : Ist) : Memory :=
  writeSlot Config.sample [] v (encodeGate h ist Config.sample.kcodeSel)

theorem oneGate_slot (v : Vec) (h : Addr) (ist : Ist) :
    readSlot Config.sample (oneGate v h ist) v = some (encodeGate h ist Config.sample.kcodeSel) :=
  readSlot_writeSlot_same _ _ _ _

theorem oneGate_legal (v : Vec) (h : Addr) (ist : Ist) (w : Vec) (d : Desc)
    (hd : readSlot Config.sample (oneGate v h ist) w = some d) : SlotLegal Config.sample d := by
  by_cases hw : w = v
  · subst hw
    rw [oneGate_slot] at hd
    cases hd
    exact .inr ⟨h, ist, rfl⟩
  · rw [oneGate, readSlot_writeSlot_other _ _ _ hw, readSlot_nil] at hd
    cases hd

/-- The table that CLRALL leaves. -/
def cleared : Memory := clearTable Config.sample []

theorem cleared_legal (v : Vec) (d : Desc) (hd : readSlot Config.sample cleared v = some d) :
    SlotLegal Config.sample d := by
  rw [cleared, readSlot_clearTable] at hd
  cases hd
  exact .inl rfl

theorem boot_stepInv : StepInv boot :=
  { payload := rfl, idtr := by decide, slots := fun _ _ h => (Option.some_ne_none _ h.symm).elim, cause := by decide }
theorem boot_registerInv : RegisterInv boot :=
  { status := by decide, fcause := by decide, code := by decide, idtr := fun _ h => (Option.some_ne_none _ h.symm).elim }
theorem boot_memoryInv : MemoryInv boot :=
  { table := List.Pairwise.nil, stack := List.Pairwise.nil, inside := fun _ h => (Bool.false_ne_true h).elim,
    outside := fun _ h => (Bool.false_ne_true h).elim, whole := fun _ _ _ _ => rfl }

theorem witness_EncodeDecodeRoundTrip : decode 0xFFFFFFFFFFFFFFFF00000071#96 = .command (.enc 7#3 0xFFFFFFFFFFFFFFFF#64) := by
  decide
theorem witness_SlotAddressesDoNotWrap : (15 : Nat) < 16 := by decide
theorem witness_EncWritesDout : faultBit boot.status = false ∧ faultBit active8.status = false := by decide
theorem witness_SetgateWritesOneSlot : faultBit boot.status = false ∧ activeBit boot.status = false := by decide
theorem witness_SetgateStoresLittleEndian : faultBit slot8.status = false ∧ activeBit slot8.status = false := by decide
theorem witness_ClrallClearsEverySlot : faultBit slot8.status = false ∧ activeBit slot8.status = false := by decide
theorem witness_RdslotCopiesSlot : faultBit slot8.status = false ∧
    readSlot slot8.cfg slot8.mem 8#8 = some 0x000000000000000000208E0100081000#128 := by decide
theorem witness_LoadActivates : faultBit boot.status = false ∧ activeBit boot.status = false := by decide
theorem witness_NoWriteAfterActivate : faultBit active8.status = false ∧ activeBit active8.status = true := by decide
theorem witness_UnwrittenSlotReadFaults : faultBit boot.status = false ∧ readSlot boot.cfg boot.mem 255#8 = none := by decide
theorem witness_SecondLoadFaults : exec .load boot = .next (after .load boot) ∧ faultBit active8.status = false ∧
    activeBit active8.status = true := ⟨exec_after _ _, by decide, by decide⟩

/-- One witness for each command that can raise a block fault. -/
theorem witness_BlockFaultsArePrecise :
    (exec (.rdslot 7#8) boot = .next faulted ∧ faultBit boot.status = false ∧ faultBit faulted.status = true) ∧
    ∀ i ∈ [Instr.setgate 14#8 0#3 0x201400#64, .clrall, .load],
      exec i active8 = .next (after i active8) ∧ faultBit active8.status = false ∧
        faultBit (after i active8).status = true :=
  ⟨⟨exec_after _ _, by decide, by decide⟩, fun i hi => ⟨exec_after _ _, by decide, by
    simp only [List.mem_cons, List.not_mem_nil, or_false] at hi
    rcases hi with rfl | rfl | rfl <;> decide⟩⟩
theorem witness_FaultedBlockTakesNoCommand : faultBit faulted.status = true ∧ faulted.agenda = [] ∧
    faultBit (faulted.setAgenda [.block]).status = true ∧ (faulted.setAgenda [.block]).agenda = .block :: [] := by decide

/-- FV1 and FV11, the second in an active state. -/
theorem witness_DecodeFaultsComeFirst :
    (let s := boot.setProgram [6#96]; s.agenda = [] ∧ faultBit s.status = false ∧ s.program[s.ci]? = some 6#96 ∧
      6 ≤ ((6#96 : Cmd).extractLsb' 0 4).toNat) ∧
    (let s := active8.withFetchWord 96 0x15; s.agenda = [] ∧ faultBit s.status = false ∧
      s.program[s.ci]? = some 0x15#96 ∧ decode 0x15#96 = .blockFault .rsvdBits ∧ activeBit s.status = true) := by decide
theorem witness_StepRunsDecodedCommand :
    (let s := boot.setProgram [5#96]; s.program[s.ci]? = some 5#96 ∧ decode 5#96 = .command .load ∧ s.agenda = []) ∧
    (let s := (boot.setProgram [5#96]).setAgenda [.block, .reset];
      s.program[s.ci]? = some 5#96 ∧ s.agenda = .block :: [.reset]) := by decide
theorem witness_BlockWaitsForIssuer : boot.program[boot.ci]? = none ∧ boot.agenda = [] ∧
    (boot.setAgenda [.block]).agenda = .block :: [] := by decide
theorem witness_PlacedWordRunsNext : decode (tableWord 96 3) = .command .clrall ∧
    (let s := (boot.setProgram [5#96]).setCi 1; 0 < s.ci ∧ 0 < s.program.length) := by decide
theorem witness_CommandIndexAdvancesByOne :
    (let s := boot.setProgram [0#96]; faultBit s.status = false ∧ s.program[s.ci]? = some 0#96) ∧
    faultBit faulted.status = true ∧ blockStep faulted = .next faulted ∧ exec .load boot = .next (after .load boot) :=
  ⟨by decide, by decide, rfl, exec_after _ _⟩
theorem witness_CommandsLeaveConsumerAlone : exec .load boot = .next (after .load boot) := exec_after _ _
theorem witness_ConsumerLeavesBlockAlone : ∃ t, consumerStep (.trap .exception 8#8 0#64) running = .next t :=
  eq_next (by decide)
theorem witness_ConfigurationNeverChanges : step boot = .next boot := rfl
theorem witness_ResetTurnResetsBlock : (faulted.setAgenda [.reset]).agenda = .reset :: [] := rfl
theorem witness_StepKeepsStepInv :
    StepInv (loaded (oneGate 8#8 0x201000#64 1#3)) ∧
      ∃ t, step (loaded (oneGate 8#8 0x201000#64 1#3)) = .next t :=
  ⟨(loaded_invs (oneGate_legal _ _ _)).1, eq_next (by decide)⟩
theorem witness_StepKeepsRegisterInv :
    RegisterInv (loaded (oneGate 8#8 0x201000#64 1#3)) ∧
      ∃ t, step (loaded (oneGate 8#8 0x201000#64 1#3)) = .next t :=
  ⟨(loaded_invs (oneGate_legal _ _ _)).2.1, eq_next (by decide)⟩
theorem witness_StepKeepsMemoryInv : MemoryInv boot ∧ step boot = .next boot := ⟨boot_memoryInv, rfl⟩
theorem witness_PhaseTransitions : let s := boot.setProgram [5#96]
    ¬ resetNext s ∧ ∃ t, step s = .next t :=
  ⟨by simp [resetNext, boot, State.resetWith], eq_next (by decide)⟩
theorem witness_ActiveTableNeverChanges :
    (let s := active8.withFetchWord 96 3; activeBit s.status = true ∧ s.agenda = [] ∧ ∃ t, step s = .next t) :=
  ⟨by decide, by decide, eq_next (by decide)⟩
theorem witness_FaultedStateSticks : faultBit faulted.status = true ∧ faulted.agenda = [] ∧ step faulted = .next faulted :=
  ⟨by decide, by decide, rfl⟩
theorem witness_ReadPortRegisters :
    (faulted.dout = none ∧ faulted.idtr = none) ∧
    (active8.idtr = some 0x00000000003000000FFF#80 ∧
      (after (.rdslot 8#8) active8).dout = some 0x000000000000000000208E0100081000#128) ∧ 4 ≤ 4 := by decide
theorem witness_LookupReadsTheSlot :
    let s := loaded (oneGate 8#8 0x201000#64 1#3)
    StepInv s ∧ RegisterInv s ∧ activeBit s.status = true ∧ s.consumer.halted = false := loaded_invs (oneGate_legal _ _ _)
theorem witness_TrapBeforeLoadFaults :
    (boot.idtr = none ∧ boot.consumer.halted = false) ∧
    (let s := boot.setConsumer { boot.consumer with ctx := ctx0 };
      s.idtr = none ∧ s.consumer.halted = false ∧ interruptsEnabled s.cfg s.consumer.ctx.rflags = true) := by decide

/-- One witness for each clause, with every source: a slot that is `⊥`, a gate that is not present, a handler that is no code address. -/
theorem witness_UndeliverableTrapsFault :
    (let s := loaded (oneGate 13#8 0x301300#64 0#3);
      (StepInv s ∧ RegisterInv s ∧ activeBit s.status = true ∧ s.consumer.halted = false) ∧
        (∀ source, takesTrap s source = true) ∧
        readSlot s.cfg s.mem 0#8 = none ∧
        readSlot s.cfg s.mem 13#8 = some (encodeGate 0x301300#64 0#3 0x0008#16) ∧
        (encodeGate 0x301300#64 0#3 0x0008#16).getLsbD 47 = true ∧
        validCode s.cfg (decodeGate (encodeGate 0x301300#64 0#3 0x0008#16)).offset = false) ∧
    ((StepInv (loaded cleared) ∧ RegisterInv (loaded cleared) ∧ activeBit (loaded cleared).status = true ∧
        (loaded cleared).consumer.halted = false) ∧
      (∀ source, takesTrap (loaded cleared) source = true) ∧
      readSlot Config.sample cleared 0#8 = some npDesc ∧ npDesc.getLsbD 47 = false) :=
  ⟨⟨loaded_invs (oneGate_legal _ _ _), loaded_takes _, by decide, oneGate_slot _ _ _, by decide, by decide⟩,
    ⟨loaded_invs cleared_legal, loaded_takes _, readSlot_clearTable Config.sample [] 0#8, by decide⟩⟩

/-- One witness without a stack switch and an error code, one with both; every source. -/
theorem witness_TrapEntersHandler :
    (let s := loaded (oneGate 33#8 0x201500#64 0#3);
      (StepInv s ∧ RegisterInv s ∧ activeBit s.status = true ∧ s.consumer.halted = false) ∧
        (∀ source, takesTrap s source = true) ∧
        readSlot s.cfg s.mem 33#8 = some (encodeGate 0x201500#64 0#3 s.cfg.kcodeSel) ∧
        validCode s.cfg 0x201500#64 = true ∧ hasErrorCode s.cfg 33#8 = false ∧
        touchesTable s.cfg (entryTop s 33#8 0#3) 40 = false) ∧
    (let s := loaded (oneGate 8#8 0x201000#64 7#3);
      (StepInv s ∧ RegisterInv s ∧ activeBit s.status = true ∧ s.consumer.halted = false) ∧
        (∀ source, takesTrap s source = true) ∧
        readSlot s.cfg s.mem 8#8 = some (encodeGate 0x201000#64 7#3 s.cfg.kcodeSel) ∧
        validCode s.cfg 0x201000#64 = true ∧ hasErrorCode s.cfg 8#8 = true ∧
        touchesTable s.cfg (entryTop s 8#8 7#3) 48 = false) :=
  ⟨⟨loaded_invs (oneGate_legal _ _ _), loaded_takes _, oneGate_slot _ _ _, by decide, by decide, by decide⟩,
    ⟨loaded_invs (oneGate_legal _ _ _), loaded_takes _, oneGate_slot _ _ _, by decide, by decide, by decide⟩⟩
theorem witness_TrapReturnRestoresContext : (33#8 : Vec) ≠ 8#8 ∧
    (let s := loaded (oneGate 33#8 0x201500#64 0#3);
      s.consumer.halted = false ∧ ∃ t, deliver 33#8 0#64 s = .next t) := ⟨by decide, rfl, eq_next (by decide)⟩
theorem witness_DoubleFaultHandlerHalts :
    (let s := running.setConsumer { running.consumer with handlers := [8#8, 14#8] };
      s.consumer.halted = false ∧ s.consumer.handlers = 8#8 :: [14#8]) ∧ (haltConsumer running).consumer.halted = true := by
  decide
theorem witness_FailedDeliveryRaisesDoubleFault :
    (boot.consumer.halted = false ∧ running.consumer.halted = false ∧ running14.consumer.halted = false ∧
      runningBoth.consumer.halted = false ∧ (14#8 : Vec) ≠ 8#8) ∧
    resolveGate boot 14#8 = .fault .beforeLoad ∧
    resolveGate running 8#8 = .gate (decodeGate 0x000000000000000000208E0100081000#128) ∧
    (resolveGate running14 14#8 = .gate (decodeGate 0x000000000000000000208E0000081400#128) ∧
      resolveGate running14 8#8 = .fault .unwritten) ∧
    resolveGate runningBoth 14#8 = .gate (decodeGate 0x000000000000000000208E0000081400#128) ∧
    resolveGate runningBoth 8#8 = .gate (decodeGate 0x000000000000000000208E0100081000#128) := by decide
theorem witness_InterruptFlagMasks : boot.consumer.halted = false ∧
    interruptsEnabled boot.cfg boot.consumer.ctx.rflags = false ∧ running.consumer.halted = false ∧
    interruptsEnabled running.cfg running.consumer.ctx.rflags = true := by decide

/-- The kernel's own code, whose segment is `KCODE_SEL`; unprivileged code is any other segment. -/
theorem witness_UnprivilegedInvocationRefused :
    let s := loaded (oneGate 33#8 0x201500#64 0#3)
    (StepInv s ∧ RegisterInv s ∧ activeBit s.status = true ∧ s.consumer.halted = false) ∧
      readSlot s.cfg s.mem 33#8 = some (encodeGate 0x201500#64 0#3 s.cfg.kcodeSel) ∧ s.consumer.ctx.cs = s.cfg.kcodeSel :=
  ⟨loaded_invs (oneGate_legal _ _ _), oneGate_slot _ _ _, rfl⟩
theorem witness_ErrorCodeVectors : let p := hasErrorCode Config.sample
    p 8#8 = true ∧ p 13#8 = true ∧ p 14#8 = true ∧ p 33#8 = false := by decide
theorem witness_PopulateAssignsSixSlots : phaseOf boot.status = .populating := by decide
theorem witness_BootSequenceBuildsTable : phaseOf slot8.status = .populating := by decide

end Sys2Proof.Tests
end

section
/-! PROOF. The statements of 00_scope.md: what a command leaves alone (R8, R20, R61), and the sets `ERRCODE_VECTORS` may be (R188). -/

namespace Sys2Proof.Machine

/-! ### What the effect of a command leaves alone -/

section
variable (i : Instr) (s : State)

@[simp] theorem commandEffect_cfg : (commandEffect i s).cfg = s.cfg := by cases i <;> rfl
@[simp] theorem commandEffect_program : (commandEffect i s).program = s.program := by cases i <;> rfl
@[simp] theorem commandEffect_agenda : (commandEffect i s).agenda = s.agenda := by cases i <;> rfl
@[simp] theorem commandEffect_consumer : (commandEffect i s).consumer = s.consumer := by cases i <;> rfl

end

/-- Settles O31: a command does nothing, raises one block fault or has its effect, and each keeps the four fields. -/
theorem commandsLeaveConsumerAlone : Obligations.CommandsLeaveConsumerAlone := by
  intro i s t h
  obtain ⟨-, rfl⟩ | ⟨-, f, -, rfl⟩ | ⟨-, -, rfl⟩ := exec_next h
  · exact ⟨rfl, rfl, rfl, rfl⟩
  · simp
  · simp

/-! ### The vectors with an error code -/

/-- Under every configuration the spec decides the vectors 8, 13, 14 and 33 (R188). -/
theorem hasErrorCode_fixed (c : Config) :
    hasErrorCode c 8#8 = true ∧ hasErrorCode c 13#8 = true ∧ hasErrorCode c 14#8 = true ∧ hasErrorCode c 33#8 = false := by
  simp [hasErrorCode]

/-- Every other vector has an error code as the configuration's mask says. -/
theorem hasErrorCode_of_not_fixed (c : Config) {v : Vec} (hTrue : ¬(v = 8#8 ∨ v = 13#8 ∨ v = 14#8)) (hFalse : v ≠ 33#8) :
    hasErrorCode c v = c.errcodeMask.getLsbD v.toNat := by
  simp only [hasErrorCode, if_neg hTrue, if_neg hFalse]

/-- The mask of a set of vectors. -/
def maskOf (p : Vec → Bool) : BitVec 256 := BitVec.ofFnLE fun n : Fin 256 => p (BitVec.ofNat 8 n)

theorem getLsbD_maskOf (p : Vec → Bool) (v : Vec) : (maskOf p).getLsbD v.toNat = p v := by
  have hv : v.toNat < 256 := v.isLt
  simp [maskOf, hv]

/-- A configuration whose mask is a set of vectors. -/
def configOf (p : Vec → Bool) : Config := { Config.sample with errcodeMask := maskOf p }

@[simp] theorem configOf_errcodeMask (p : Vec → Bool) : (configOf p).errcodeMask = maskOf p := by simp only [configOf]

/-- A set that has the vectors 8, 13 and 14 and not 33 is the set of its configuration: the mask says so of every vector that
the spec does not decide. -/
theorem hasErrorCode_configOf {p : Vec → Bool} (h8 : p 8#8 = true) (h13 : p 13#8 = true) (h14 : p 14#8 = true)
    (h33 : p 33#8 = false) (v : Vec) : hasErrorCode (configOf p) v = p v := by
  obtain ⟨c8, c13, c14, c33⟩ := hasErrorCode_fixed (configOf p)
  by_cases hTrue : v = 8#8 ∨ v = 13#8 ∨ v = 14#8
  · obtain rfl | rfl | rfl := hTrue
    · exact c8.trans h8.symm
    · exact c13.trans h13.symm
    · exact c14.trans h14.symm
  by_cases hFalse : v = 33#8
  · rw [hFalse, c33, h33]
  · rw [hasErrorCode_of_not_fixed _ hTrue hFalse, configOf_errcodeMask, getLsbD_maskOf]

/-- Settles O54: every configuration has the four vectors as the spec decides them, and `configOf` has any such set. -/
theorem errorCodeVectors : Obligations.ErrorCodeVectors :=
  ⟨hasErrorCode_fixed, fun p h8 h13 h14 h33 => ⟨configOf p, hasErrorCode_configOf h8 h13 h14 h33⟩⟩

end Sys2Proof.Machine
end

section
/-! PROOF. The statements of 10_state.md: what one step makes of the state, `CI` (R30), the read port (R32), the phases (R33),
reset (R35), and the invariants at every step boundary (R36). -/

namespace Sys2Proof.Machine

/-! ### The turn a step takes -/

/-- The state with its next turn taken off the order of turns. Every step moves on from this state. -/
def turnTaken (s : State) : State := s.setAgenda s.agenda.tail

section
variable (s : State)

@[simp] theorem turnTaken_cfg : (turnTaken s).cfg = s.cfg := rfl
@[simp] theorem turnTaken_mem : (turnTaken s).mem = s.mem := rfl
@[simp] theorem turnTaken_dout : (turnTaken s).dout = s.dout := rfl
@[simp] theorem turnTaken_payload : (turnTaken s).payload = s.payload := rfl
@[simp] theorem turnTaken_idtr : (turnTaken s).idtr = s.idtr := rfl
@[simp] theorem turnTaken_status : (turnTaken s).status = s.status := rfl
@[simp] theorem turnTaken_fcause : (turnTaken s).fcause = s.fcause := rfl
@[simp] theorem turnTaken_ci : (turnTaken s).ci = s.ci := rfl
@[simp] theorem turnTaken_program : (turnTaken s).program = s.program := rfl
@[simp] theorem turnTaken_consumer : (turnTaken s).consumer = s.consumer := rfl

end

theorem turnTaken_of_cons {s : State} {turn : Turn} {rest : List Turn} (h : s.agenda = turn :: rest) :
    turnTaken s = s.setAgenda rest := by
  rw [turnTaken, h, List.tail_cons]

/-- With no turn listed there is none to take off. -/
theorem turnTaken_of_nil {s : State} (h : s.agenda = []) : turnTaken s = s := by
  rw [turnTaken, h, List.tail_nil, ← h]
  rfl

/-- The block has the next turn: it is listed first, or no turn is listed. -/
def blockNext (s : State) : Prop := s.agenda = [] ∨ ∃ rest, s.agenda = .block :: rest

theorem step_of_blockNext {s : State} (h : blockNext s) : step s = blockStep (turnTaken s) := by
  obtain hnil | ⟨rest, hcons⟩ := h
  · rw [turnTaken_of_nil hnil, step, hnil]
  · rw [turnTaken_of_cons hcons, step, hcons]

theorem step_of_reset {s : State} {rest : List Turn} (h : s.agenda = .reset :: rest) :
    step s = .next (blockReset (turnTaken s)) := by
  rw [turnTaken_of_cons h, step, h]

/-! ### The word the block takes -/

theorem blockStep_of_word {s : State} {w : Cmd} (h : s.program[s.ci]? = some w) : blockStep s = takeWord w s := by
  rw [blockStep, nextWord, h]

theorem takeWord_of_command {w : Cmd} {i : Instr} (h : decode w = .command i) (s : State) : takeWord w s = exec i s := by
  rw [takeWord, h]

/-- Everything that taking a word can do: nothing when the block is faulted, one block fault, or the effect of the command that
the word decodes to. -/
theorem takeWord_next {w : Cmd} {s t : State} (h : takeWord w s = .next t) :
    (faultBit s.status = true ∧ t = s) ∨
    (faultBit s.status = false ∧ ∃ f, t = raiseBlockFault f s) ∨
    (faultBit s.status = false ∧ ∃ i, decode w = .command i ∧ stateFault i s = none ∧ t = advance (commandEffect i s)) := by
  simp only [takeWord] at h
  split at h
  · obtain hfaulted | ⟨hclear, f, -, ht⟩ | ⟨hclear, hcheck, ht⟩ := exec_next h
    · exact .inl hfaulted
    · exact .inr (.inl ⟨hclear, f, ht⟩)
    · exact .inr (.inr ⟨hclear, _, ‹_›, hcheck, ht⟩)
  · obtain hfaulted | ⟨hclear, ht⟩ := takeCommand_cases h
    · exact .inl hfaulted
    · exact .inr (.inl ⟨hclear, _, ht⟩)

/-- Settles O27: the block's turn takes the word at `CI`, and a word that decodes to a command is that command. -/
theorem stepRunsDecodedCommand : Obligations.StepRunsDecodedCommand := by
  intro s w i hword hdecode
  have hrun : blockNext s → step s = exec i (turnTaken s) := fun hnext => by
    rw [step_of_blockNext hnext, blockStep_of_word (s := turnTaken s) hword, takeWord_of_command hdecode]
  refine ⟨fun hnil => ?_, fun rest hcons => ?_⟩
  · rw [hrun (.inl hnil), turnTaken_of_nil hnil]
  · rw [hrun (.inr ⟨rest, hcons⟩), turnTaken_of_cons hcons]
    rfl

/-! ### Placing a word (log 6) -/

theorem placeWord_getElem?_self (program : List Cmd) (n : Nat) (w : Cmd) : (placeWord program n w)[n]? = some w := by
  have hlen : (program.take n ++ List.replicate (n - program.length) 0#96).length = n := by simp; omega
  rw [placeWord, List.getElem?_append_right (by omega), hlen, Nat.sub_self, List.getElem?_cons_zero]

/-- Placing a word keeps every word before it. -/
theorem placeWord_getElem?_of_lt {program : List Cmd} {k n : Nat} (w : Cmd) (hk : k < n) (hlen : k < program.length) :
    (placeWord program n w)[k]? = program[k]? := by
  rw [placeWord, List.append_assoc, List.getElem?_append_left (by simp; omega), List.getElem?_take_of_lt hk]

/-- After a word is placed the block has the turn. -/
theorem blockNext_placeNext (s : State) (w : Cmd) : blockNext (placeNext s w) := by
  unfold blockNext placeNext
  rw [State.setAgenda_agenda]
  match s.agenda with
  | [] => exact .inl rfl
  | .block :: rest => exact .inr ⟨_, rfl⟩
  | .consumer e :: rest => exact .inr ⟨_, rfl⟩
  | .reset :: rest => exact .inr ⟨_, rfl⟩

/-- Settles O29: the word placed stands at `CI`, and the turn that runs it is the block's. -/
theorem placedWordRunsNext : Obligations.PlacedWordRunsNext := by
  intro s nbits w i hdecode
  have hplaced := placeWord_getElem?_self s.program s.ci (tableWord nbits w)
  refine ⟨placeWord s.program s.ci (tableWord nbits w), (blockFirst s.agenda).tail, hplaced,
    fun n hn hlen => placeWord_getElem?_of_lt _ hn hlen, ?_⟩
  rw [State.withFetchWord, step_of_blockNext (blockNext_placeNext s _), blockStep_of_word hplaced,
    takeWord_of_command hdecode]
  rfl

/-! ### Everything a step can do -/

/-- What a step makes of `s`: the next state is one of these five. -/
inductive StepTo (s : State) : State → Prop
  /-- The block waits, or is faulted. -/
  | stay : StepTo s (turnTaken s)
  /-- The block takes a word that raises a block fault. -/
  | blockFault (f : BlockFault) (hclear : faultBit s.status = false) : StepTo s (raiseBlockFault f (turnTaken s))
  /-- The block takes a command whose state check passes. -/
  | command (i : Instr) (hclear : faultBit s.status = false) (hword : (s.program[s.ci]?).map decode = some (.command i))
      (hcheck : stateFault i (turnTaken s) = none) : StepTo s (advance (commandEffect i (turnTaken s)))
  /-- The consumer moves. -/
  | consumer (c : Consumer) : StepTo s ((turnTaken s).setConsumer c)
  /-- The block is reset. -/
  | reset (hreset : resetNext s) : StepTo s (blockReset (turnTaken s))

theorem stepTo_of_blockStep {s t : State} (h : blockStep (turnTaken s) = .next t) : StepTo s t := by
  cases hword : s.program[s.ci]? with
  | none =>
    rw [blockStep, nextWord, turnTaken_program, turnTaken_ci, hword] at h
    cases h
    exact .stay
  | some w =>
    rw [blockStep_of_word (s := turnTaken s) hword] at h
    obtain ⟨-, rfl⟩ | ⟨hclear, f, rfl⟩ | ⟨hclear, i, hdecode, hcheck, rfl⟩ := takeWord_next h
    · exact .stay
    · exact .blockFault f hclear
    · exact .command i hclear (by rw [hword, Option.map_some, hdecode]) hcheck

/-- The inversion of a step, with the turn it takes off in one place. -/
theorem stepTo_of_step {s t : State} (h : step s = .next t) : StepTo s t := by
  obtain ⟨hnil, hblock⟩ | ⟨rest, hcons, hblock⟩ | ⟨e, rest, hcons, hconsumer⟩ | ⟨rest, hcons, rfl⟩ := step_next h
  · exact stepTo_of_blockStep (by rwa [turnTaken_of_nil hnil])
  · exact stepTo_of_blockStep (by rwa [turnTaken_of_cons hcons])
  · rw [consumerStep_next hconsumer, ← turnTaken_of_cons hcons]
    exact .consumer _
  · rw [← turnTaken_of_cons hcons]
    exact .reset (by rw [resetNext, hcons, List.head?_cons])

/-- Settles O33: none of the five cases of a step writes the configuration. -/
theorem configurationNeverChanges : Obligations.ConfigurationNeverChanges := by
  intro s t h
  cases stepTo_of_step h with
  | stay => rfl
  | blockFault f => rfl
  | command i => simp
  | consumer c => rfl
  | reset => rfl

/-- Settles O43: a faulted block takes no word, and a turn of the consumer writes the consumer alone. -/
theorem faultedStateSticks : Obligations.FaultedStateSticks := by
  intro s t hfault hreset h
  cases stepTo_of_step h with
  | stay => exact ⟨rfl, rfl, rfl, rfl, rfl, rfl, rfl⟩
  | blockFault f hclear => simp [hfault] at hclear
  | command i hclear => simp [hfault] at hclear
  | consumer c => exact ⟨rfl, rfl, rfl, rfl, rfl, rfl, rfl⟩
  | reset hnext => exact absurd hnext hreset

/-! ### The command index (R30) -/

@[simp] theorem commandEffect_ci (i : Instr) (s : State) : (commandEffect i s).ci = s.ci := by cases i <;> rfl

/-- A word taken advances `CI` by 1, whatever it does; a faulted block takes none. -/
theorem takeWord_ci {w : Cmd} {s t : State} (h : takeWord w s = .next t) :
    t.ci = if faultBit s.status then s.ci else s.ci + 1 := by
  obtain ⟨hfault, rfl⟩ | ⟨hclear, f, rfl⟩ | ⟨hclear, i, -, -, rfl⟩ := takeWord_next h
  · rw [if_pos hfault]
  · simp [hclear]
  · simp [hclear]

/-- So does a command. -/
theorem exec_ci {i : Instr} {s t : State} (h : exec i s = .next t) :
    t.ci = if faultBit s.status then s.ci else s.ci + 1 := by
  obtain ⟨hfault, rfl⟩ | ⟨hclear, f, -, rfl⟩ | ⟨hclear, -, rfl⟩ := exec_next h
  · rw [if_pos hfault]
  · simp [hclear]
  · simp [hclear]

/-- Settles O30: `takeWord_ci` for the block's turn, `exec_ci` for the commands. -/
theorem commandIndexAdvancesByOne : Obligations.CommandIndexAdvancesByOne := by
  refine ⟨fun c => rfl, fun s w hclear hword => ?_, fun s t hfault h => ?_, fun i s t => exec_ci⟩
  · obtain ⟨t, ht⟩ := blockStep_answers s
    refine ⟨t, ht, ?_⟩
    rw [blockStep_of_word hword] at ht
    simpa [hclear] using takeWord_ci ht
  · obtain rfl | ⟨i, hexec⟩ | ⟨hclear, -⟩ := blockStep_next h
    · rfl
    · simpa [hfault] using exec_ci hexec
    · simp [hfault] at hclear

/-! ### The read port (R32) -/

/-- Settles O44, register by register. -/
theorem readPortRegisters : Obligations.ReadPortRegisters := by
  intro s
  refine ⟨rfl, rfl, fun d hd => ?_, fun hd => ?_, fun p hp => ?_, fun hp => ?_, fun n hn => ?_⟩
  · simp only [readPort, hd]
  · simp only [readPort, hd]
  · simp only [readPort, hp]
  · simp only [readPort, hp]
  · obtain ⟨k, rfl⟩ := Nat.exists_eq_add_of_le' hn
    rfl

/-! ### The phases (R33) -/

theorem phaseOf_eq_faulted_iff {status : BitVec 32} : phaseOf status = .faulted ↔ faultBit status = true := by
  cases hf : faultBit status
  · cases ha : activeBit status <;> simp [phaseOf, hf, ha]
  · simp [phaseOf, hf]

theorem phaseOf_zero : phaseOf 0#32 = .populating := by decide

theorem phaseOf_withFault (status : BitVec 32) : phaseOf (withFault status) = .faulted :=
  phaseOf_eq_faulted_iff.2 (faultBit_withFault status)

theorem phaseOf_of_inactive {status : BitVec 32} (hf : faultBit status = false) (ha : activeBit status = false) :
    phaseOf status = .populating := by
  simp [phaseOf, hf, ha]

theorem phaseOf_withActive {status : BitVec 32} (hf : faultBit status = false) : phaseOf (withActive status) = .active := by
  simp [phaseOf, hf]

/-- A block fault in the form the statements give it (R170). -/
theorem raiseBlockFault_eq_blockFaulted (f : BlockFault) (s : State) :
    raiseBlockFault f s = blockFaulted s ((blockFaultCode f).setWidth 32) := rfl

/-- The codes that are raised (R171). -/
theorem blockFaultCode_mem (f : BlockFault) :
    (blockFaultCode f).setWidth 32 ∈ [1#32, 2#32, 3#32, 4#32, 5#32] := by
  cases f <;> decide

/-- The LOAD that a block takes finds it inactive (R152). -/
theorem inactive_of_load {s : State} (h : stateFault .load s = none) : activeBit s.status = false := by
  cases ha : activeBit s.status
  · rfl
  · simp [stateFault, ha] at h

/-- LOAD alone writes STATUS. -/
theorem commandEffect_status {i : Instr} (h : i ≠ .load) (s : State) : (commandEffect i s).status = s.status := by
  cases i with
  | load => exact absurd rfl h
  | _ => rfl

/-- Settles O41: of the five cases of a step, LOAD alone sets ACTIVE and a block fault alone sets FAULT. -/
theorem phaseTransitions : Obligations.PhaseTransitions := by
  refine ⟨fun s => rfl, fun _ => phaseOf_zero, fun s t hreset h => ?_⟩
  cases stepTo_of_step h with
  | stay => exact .inl rfl
  | blockFault f hclear =>
    refine .inr (.inr ⟨fun hp => ?_, phaseOf_withFault _, _, blockFaultCode_mem f, raiseBlockFault_eq_blockFaulted f _⟩)
    simp [phaseOf_eq_faulted_iff.1 hp] at hclear
  | command i hclear hword hcheck =>
    by_cases hload : i = .load
    · subst hload
      exact .inr (.inl ⟨phaseOf_of_inactive hclear (inactive_of_load hcheck), phaseOf_withActive hclear, hword⟩)
    · exact .inl (by rw [advance_status, commandEffect_status hload, turnTaken_status])
  | consumer c => exact .inl rfl
  | reset hnext => exact absurd hnext hreset

/-! ### Reset (R35, R200) -/

theorem hasResetValues_resetWith (c : Config) : HasResetValues (State.resetWith c) :=
  ⟨readSlot_nil c, rfl, rfl, rfl, rfl, rfl, rfl, phaseOf_zero⟩

/-- Settles O34: the platform's reset is the reset under the platform's configuration. -/
theorem resetValues : Obligations.ResetValues := ⟨hasResetValues_resetWith Config.platform, hasResetValues_resetWith⟩

/-- Settles O35: the step is `blockReset`, whose record update is the statement's. -/
theorem resetTurnResetsBlock : Obligations.ResetTurnResetsBlock := by
  intro s rest h
  rw [step_of_reset h, turnTaken_of_cons h]
  rfl

theorem stepInv_resetWith (c : Config) : StepInv (State.resetWith c) where
  payload := rfl
  idtr := show false = activeBit 0#32 by decide
  slots v d hd := by simp [State.resetWith] at hd
  cause := show causeCode 0#32 ≠ 0#4 ↔ faultBit 0#32 = true by decide

theorem registerInv_resetWith (c : Config) : RegisterInv (State.resetWith c) where
  status := BitVec.zero_and
  fcause := BitVec.zero_and
  code := Nat.zero_le 5
  idtr p hp := by cases hp

theorem memoryInv_resetWith (c : Config) : MemoryInv (State.resetWith c) where
  table := List.Pairwise.nil
  stack := List.Pairwise.nil
  inside a ha := by cases ha
  outside a ha := by cases ha
  whole v hv k hk := rfl

/-- Settles O36: R36 holds at reset under every configuration, the platform's among them. -/
theorem resetMeetsStepInv : Obligations.ResetMeetsStepInv := ⟨stepInv_resetWith, stepInv_resetWith Config.platform⟩

/-- Settles O38, from the reset state's registers, all 0 or `⊥`, and its two empty memories. -/
theorem resetMeetsFormInvs : Obligations.ResetMeetsFormInvs := fun c => ⟨registerInv_resetWith c, memoryInv_resetWith c⟩

/-! ### Invariants of a step -/

/-- A property that each of the five cases of a step keeps, every step keeps. -/
theorem step_keeps {P : State → Prop} (turn : ∀ s, P s → P (turnTaken s))
    (blockFault : ∀ f s, P s → P (raiseBlockFault f s)) (command : ∀ i s, P s → P (advance (commandEffect i s)))
    (consumer : ∀ c s, P s → P (s.setConsumer c)) (reset : ∀ s, P (blockReset s)) {s t : State} (hs : P s)
    (h : step s = .next t) : P t := by
  cases stepTo_of_step h with
  | stay => exact turn s hs
  | blockFault f => exact blockFault f _ (turn s hs)
  | command i => exact command i _ (turn s hs)
  | consumer c => exact consumer c _ (turn s hs)
  | reset => exact reset _

/-! ### The invariants of R36 -/

/-- Every slot that is not `⊥` is legal (R36 c). -/
def SlotsLegal (c : Config) (m : Memory) : Prop := ∀ v d, readSlot c m v = some d → SlotLegal c d

/-- Writing a legal descriptor into a slot keeps every slot legal. -/
theorem slotsLegal_writeSlot {c : Config} {m : Memory} {d : Desc} (h : SlotsLegal c m) (hd : SlotLegal c d) (v : Vec) :
    SlotsLegal c (writeSlot c m v d) := by
  intro w e he
  by_cases hw : w = v
  · rw [hw, readSlot_writeSlot_same, Option.some.injEq] at he
    exact he ▸ hd
  · exact h w e (by rwa [readSlot_writeSlot_other c m d hw] at he)

theorem slotsLegal_clearTable (c : Config) (m : Memory) : SlotsLegal c (clearTable c m) := by
  intro v d hd
  rw [readSlot_clearTable, Option.some.injEq] at hd
  exact .inl hd.symm

/-- Every code that is raised is non-zero (R171). -/
theorem blockFaultCode_ne_zero (f : BlockFault) : blockFaultCode f ≠ 0#4 := by cases f <;> decide

/-- A block fault sets `CODE` and `FAULT` together (R170). -/
theorem stepInv_raiseBlockFault (f : BlockFault) {s : State} (h : StepInv s) : StepInv (raiseBlockFault f s) where
  payload := h.payload
  idtr := by simpa using h.idtr
  slots := h.slots
  cause := by simpa using blockFaultCode_ne_zero f

/-- LOAD sets `ACTIVE` and `IDTR` together and empties `PAYLOAD` (R150); SETGATE and CLRALL write legal slots (R120, R125). -/
theorem stepInv_commandEffect (i : Instr) {s : State} (h : StepInv s) : StepInv (advance (commandEffect i s)) := by
  obtain ⟨payload, idtr, slots, cause⟩ := h
  cases i with
  | enc ist handler => exact ⟨payload, idtr, slots, cause⟩
  | setgate vec ist handler =>
    exact ⟨payload, idtr, slotsLegal_writeSlot slots (.inr ⟨handler, ist, rfl⟩) vec, cause⟩
  | clrall => exact ⟨payload, idtr, slotsLegal_clearTable s.cfg s.mem, cause⟩
  | rdslot vec => exact ⟨payload, idtr, slots, cause⟩
  | load => exact ⟨rfl, (activeBit_withActive s.status).symm, slots, by simpa [commandEffect] using cause⟩

theorem stepInv_blockReset (s : State) : StepInv (blockReset s) := by
  obtain ⟨payload, idtr, slots, cause⟩ := stepInv_resetWith s.cfg
  exact ⟨payload, idtr, slots, cause⟩

/-- Settles O37: a block fault, a command and a reset keep R36, which reads neither the order of turns nor the consumer. -/
theorem stepKeepsStepInv : Obligations.StepKeepsStepInv := by
  intro s t hs h
  refine step_keeps ?turn ?blockFault ?command ?consumer stepInv_blockReset hs h
  case turn => exact fun _ inv => ⟨inv.payload, inv.idtr, inv.slots, inv.cause⟩
  case blockFault => exact fun f _ => stepInv_raiseBlockFault f
  case command => exact fun i _ => stepInv_commandEffect i
  case consumer => exact fun _ _ inv => ⟨inv.payload, inv.idtr, inv.slots, inv.cause⟩

/-! ### The form of the registers (R27, R28, R29, R171) -/

/-- Bits set outside a mask leave the masked bits alone. -/
theorem or_and_of_and_eq_zero {w : Nat} (v : BitVec w) {bits mask : BitVec w} (h : bits &&& mask = 0#w) :
    (v ||| bits) &&& mask = v &&& mask := by
  rw [BitVec.and_or_distrib_right, h, BitVec.or_zero]

/-- Setting `FAULT` leaves the reserved bits of STATUS alone. -/
theorem withFault_reserved (status : BitVec 32) : withFault status &&& 0xFFFFFFFC#32 = status &&& 0xFFFFFFFC#32 :=
  or_and_of_and_eq_zero status (by decide)

/-- Setting `ACTIVE` leaves the reserved bits of STATUS alone. -/
theorem withActive_reserved (status : BitVec 32) : withActive status &&& 0xFFFFFFFC#32 = status &&& 0xFFFFFFFC#32 :=
  or_and_of_and_eq_zero status (by decide)

/-- Writing `CODE` leaves the reserved bits of FCAUSE alone. -/
theorem withCause_reserved (fcause : BitVec 32) (code : BitVec 4) :
    withCause fcause code &&& 0xFFFFFFF0#32 = fcause &&& 0xFFFFFFF0#32 := by
  have hcode : code.setWidth 32 &&& 0xFFFFFFF0#32 = 0#32 := by
    revert code
    decide
  rw [withCause, or_and_of_and_eq_zero _ hcode, BitVec.and_assoc, BitVec.and_self]

theorem blockFaultCode_le (f : BlockFault) : (blockFaultCode f).toNat ≤ 5 := by cases f <;> decide

theorem registerInv_raiseBlockFault (f : BlockFault) {s : State} (h : RegisterInv s) : RegisterInv (raiseBlockFault f s) where
  status := (withFault_reserved s.status).trans h.status
  fcause := (withCause_reserved s.fcause _).trans h.fcause
  code := by simpa using blockFaultCode_le f
  idtr := h.idtr

/-- No command writes FCAUSE, and LOAD alone writes STATUS and `IDTR`. -/
theorem registerInv_commandEffect (i : Instr) {s : State} (h : RegisterInv s) :
    RegisterInv (advance (commandEffect i s)) := by
  obtain ⟨status, fcause, code, idtr⟩ := h
  cases i with
  | load => exact ⟨(withActive_reserved s.status).trans status, fcause, code, fun p hp => (Option.some.inj hp).symm⟩
  | _ => exact ⟨status, fcause, code, idtr⟩

theorem registerInv_blockReset (s : State) : RegisterInv (blockReset s) := by
  obtain ⟨status, fcause, code, idtr⟩ := registerInv_resetWith s.cfg
  exact ⟨status, fcause, code, idtr⟩

/-- Settles O39: a block fault, a command and a reset keep the form of the registers, whatever the order of turns and the
consumer are. -/
theorem stepKeepsRegisterInv : Obligations.StepKeepsRegisterInv := by
  intro s t hs h
  refine step_keeps ?turn ?blockFault ?command ?consumer registerInv_blockReset hs h
  case turn => exact fun _ inv => ⟨inv.status, inv.fcause, inv.code, inv.idtr⟩
  case blockFault => exact fun f _ => registerInv_raiseBlockFault f
  case command => exact fun i _ => registerInv_commandEffect i
  case consumer => exact fun _ _ inv => ⟨inv.status, inv.fcause, inv.code, inv.idtr⟩

end Sys2Proof.Machine
end

section
/-! PROOF. The statements of 20_memory.md: where the slots lie (R52, R53), the bytes SETGATE stores (R51), the form of the two
memories at every step (R50, R55, R56, R59), the table once it is active (R57, R62), the lookup after LOAD (R180-R183), and the
waiting block (log 7). -/

namespace Sys2Proof.Machine

/-! ### Slot addresses (R52, R53) -/

/-- An address of the table is a natural number from `TABLE_BASE` on: nothing wraps. -/
theorem tableBase_add_toNat (c : Config) {n : Nat} (hn : n < 4096) :
    (tableBase c + BitVec.ofNat 64 n).toNat = c.tableBaseNat.val + n := by
  have hbase := c.tableBaseNat.isLt
  simp only [tableBase, BitVec.toNat_add, BitVec.toNat_ofNat]
  omega

/-- Byte `k` of slot `v`, as an offset from `TABLE_BASE`. -/
theorem slotAddr_byte (c : Config) (v : Vec) (k : Nat) :
    slotAddr c v + BitVec.ofNat 64 k = tableBase c + BitVec.ofNat 64 (16 * v.toNat + k) := slotAddrAt_byte _ v k

/-- Settles O14: the offset of a slot's byte is below 4096, and `TABLE_BASE` is at most `2^64 - 4096`. -/
theorem slotAddressesDoNotWrap : Obligations.SlotAddressesDoNotWrap := by
  intro c v k hk
  have hv : v.toNat < 256 := v.isLt
  have hbase := c.tableBaseNat.isLt
  have haddr : (slotAddr c v + BitVec.ofNat 64 k).toNat = c.tableBaseNat.val + (16 * v.toNat + k) := by
    rw [slotAddr_byte, tableBase_add_toNat c (by omega)]
  omega

/-! ### Bytes outside a write -/

/-- A write reaches no address from 2^64 on: it goes on at address 0 instead (R12). -/
theorem readByte_writeBytes_high (m : Memory) {a : Addr} {bs : List Byte} (hlen : bs.length ≤ 2 ^ 64) {x : Nat}
    (hx : 2 ^ 64 ≤ x) : readByte (writeBytes m a bs) x = readByte m x := by
  have ha := a.isLt
  rw [writeBytes, readByte_writeRun, readByte_writeRun, List.length_take, List.length_drop, if_neg (by omega),
    if_neg (by omega)]

/-- A byte outside the slot written stays, at every natural-number address. -/
theorem readByte_writeSlot_outside (c : Config) (m : Memory) (v : Vec) (d : Desc) {x : Nat}
    (h : ∀ k, k < 16 → x ≠ (slotAddr c v + BitVec.ofNat 64 k).toNat) :
    readByte (writeSlot c m v d) x = readByte m x := by
  by_cases hx : x < 2 ^ 64
  · exact readByte_writeSlot_other c m v d hx h
  · exact readByte_writeBytes_high m (by simp) (Nat.le_of_not_lt hx)

/-- SETGATE in a block that is neither faulted nor active writes its slot (R120). -/
theorem exec_setgate_of_populating {s : State} (hf : faultBit s.status = false) (ha : activeBit s.status = false)
    (vec : Vec) (ist : Ist) (handler : Addr) :
    exec (.setgate vec ist handler) s =
      .next (advance (s.setMem (writeSlot s.cfg s.mem vec (encodeGate handler ist s.cfg.kcodeSel)))) := by
  simp [exec_eq, hf, stateFault, ha, commandEffect]

/-- Settles O17: the state after SETGATE holds the slot written, of which the two lemmas about bytes speak. -/
theorem setgateStoresLittleEndian : Obligations.SetgateStoresLittleEndian := by
  intro s vec ist handler hf ha
  exact ⟨_, exec_setgate_of_populating hf ha vec ist handler, fun k hk => readByte_writeSlot_at _ _ _ _ hk,
    fun a hout => readByte_writeSlot_outside _ _ _ _ hout⟩

/-! ### What a turn of the consumer can do to its stack -/

/-- Settles O32: it is `consumerStep_next`. -/
theorem consumerLeavesBlockAlone : Obligations.ConsumerLeavesBlockAlone := fun _ _ _ h => consumerStep_next h

/-- A trap that is raised is masked, or a handler is entered (R185, R193, R195). -/
theorem takeTrap_enters {source : TrapSource} {v : Vec} {err : BitVec 64} {s t : State}
    (h : takeTrap source v err s = .next t) : t = s ∨ ∃ w g, enterHandler w err g s = .next t := by
  have enters : ∀ {w}, deliver w err s = .next t → ∃ w g, enterHandler w err g s = .next t := fun hd => by
    obtain ⟨g, -, hg⟩ := deliver_next hd
    exact ⟨_, g, hg⟩
  cases source with
  | exception => exact .inr (enters h)
  | external =>
    simp only [takeTrap, takeExternal] at h
    split at h
    · exact .inr (enters h)
    · cases h
      exact .inl rfl
  | software =>
    simp only [takeTrap, takeSoftware] at h
    split at h
    · cases h
    · split at h
      · exact .inr (enters h)
      · exact .inr (enters h)

/-- The consumer writes its stack memory only where it enters a handler. -/
theorem consumerStep_stack {e : ConsumerEvent} {s t : State} (h : consumerStep e s = .next t) :
    t.consumer.stack = s.consumer.stack ∨ ∃ v err g, enterHandler v err g s = .next t := by
  simp only [consumerStep] at h
  split at h
  · cases h
  cases e with
  | runs ctx =>
    simp only [runCode] at h
    split at h
    · cases h
      exact .inl rfl
    · cases h
  | trap source v err =>
    obtain rfl | ⟨w, g, hg⟩ := takeTrap_enters h
    · exact .inl rfl
    · exact .inr ⟨w, err, g, hg⟩
  | deliveryFails v err =>
    obtain ⟨-, -, g, -, hg⟩ := failDelivery_next h
    exact .inr ⟨_, err, g, hg⟩
  | handlerEnds =>
    simp only [endHandler] at h
    split at h
    · cases h
    · split at h
      · cases h
        exact .inl rfl
      · obtain ⟨_, _, -, -, rfl⟩ := returnFromTrap_next h
        exact .inl rfl

/-- The block's turn leaves the consumer alone. -/
theorem blockStep_consumer {s t : State} (h : blockStep s = .next t) : t.consumer = s.consumer := by
  obtain rfl | ⟨i, hexec⟩ | ⟨-, f, rfl⟩ := blockStep_next h
  · rfl
  · exact (commandsLeaveConsumerAlone i s t hexec).1
  · rfl

/-- A step writes stack memory only where it enters a handler. -/
theorem step_stack {s t : State} (h : step s = .next t) :
    t.consumer.stack = s.consumer.stack ∨ ∃ v err g, enterHandler v err g (turnTaken s) = .next t := by
  obtain ⟨-, hblock⟩ | ⟨rest, -, hblock⟩ | ⟨e, rest, hcons, hconsumer⟩ | ⟨rest, -, rfl⟩ := step_next h
  · rw [blockStep_consumer hblock]
    exact .inl rfl
  · rw [blockStep_consumer hblock]
    exact .inl rfl
  · rw [turnTaken_of_cons hcons]
    exact consumerStep_stack hconsumer
  · exact .inl rfl

/-! ### The form of the table memory (R50, R55, R56) -/

/-- The part of `MemoryInv` about table memory. -/
structure TableForm (c : Config) (m : Memory) : Prop where
  wf : Memory.wf m
  inside : ∀ a : Addr, (readByte m a.toNat).isSome → inTable c a = true
  whole : ∀ v, readSlot c m v = none → ∀ k, k < 16 → readByte m (slotAddr c v + BitVec.ofNat 64 k).toNat = none

theorem tableForm_nil (c : Config) : TableForm c [] where
  wf := List.Pairwise.nil
  inside a ha := by cases ha
  whole v _ k _ := rfl

/-- A slot is written whole, and its bytes are the table's. -/
theorem tableForm_writeSlot {c : Config} {m : Memory} (h : TableForm c m) (v : Vec) (d : Desc) :
    TableForm c (writeSlot c m v d) where
  wf := writeSlot_wf h.wf v d
  inside a ha := by
    by_cases hslot : ∃ k, k < 16 ∧ a = slotAddr c v + BitVec.ofNat 64 k
    · obtain ⟨k, hk, rfl⟩ := hslot
      exact inTable_slot c v hk
    · have hout : ∀ k, k < 16 → a.toNat ≠ (slotAddr c v + BitVec.ofNat 64 k).toNat := fun k hk e =>
        hslot ⟨k, hk, BitVec.eq_of_toNat_eq e⟩
      rw [readByte_writeSlot_outside c m v d hout] at ha
      exact h.inside a ha
  whole w hw k hk := by
    have hne : w ≠ v := by
      rintro rfl
      simp [readSlot_writeSlot_same] at hw
    rw [readSlot_writeSlot_other c m d hne] at hw
    rw [readByte_writeSlot_outside c m v d fun j hj => slotAddr_byte_ne hne hk hj]
    exact h.whole w hw k hk

/-- CLRALL leaves no slot `⊥`, and no byte outside the table changes. -/
theorem tableForm_clearTable {c : Config} {m : Memory} (h : TableForm c m) : TableForm c (clearTable c m) where
  wf := clearTable_wf h.wf
  inside a ha := by
    by_contra hout
    rw [readByte_clearTable_other c m (Bool.eq_false_iff.2 hout)] at ha
    exact hout (h.inside a ha)
  whole v hv := by simp [readSlot_clearTable] at hv

/-- SETGATE and CLRALL alone write table memory. -/
theorem tableForm_commandEffect (i : Instr) {s : State} (h : TableForm s.cfg s.mem) :
    TableForm (commandEffect i s).cfg (commandEffect i s).mem := by
  cases i with
  | setgate vec ist handler => exact tableForm_writeSlot h vec _
  | clrall => exact tableForm_clearTable h
  | _ => exact h

theorem step_keeps_tableForm {s t : State} (hs : TableForm s.cfg s.mem) (h : step s = .next t) : TableForm t.cfg t.mem := by
  refine step_keeps (P := fun s => TableForm s.cfg s.mem) ?turn ?blockFault ?command ?consumer ?reset hs h
  case turn => exact fun _ inv => inv
  case blockFault => exact fun _ _ inv => inv
  case command => exact fun i _ => tableForm_commandEffect i
  case consumer => exact fun _ _ inv => inv
  case reset => exact fun s => tableForm_nil s.cfg

/-! ### The form of the stack memory (R59) -/

/-- The part of `MemoryInv` about the consumer's stack memory. -/
structure StackForm (c : Config) (m : Memory) : Prop where
  wf : Memory.wf m
  outside : ∀ a : Addr, (readByte m a.toNat).isSome → inTable c a = false

/-- A run that does not touch the table has no address in it. -/
theorem inTable_of_not_touchesTable {c : Config} {a : Addr} {n k : Nat} (h : touchesTable c a n = false) (hk : k < n) :
    inTable c (a + BitVec.ofNat 64 k) = false := by
  simp only [touchesTable, List.any_eq_false, List.mem_range] at h
  exact Bool.eq_false_iff.2 (h k hk)

/-- A push that does not touch the table keeps stack memory outside it. -/
theorem stackForm_writeWords {c : Config} {m : Memory} (h : StackForm c m) {a : Addr} {ws : List (BitVec 64)}
    (htable : touchesTable c a (8 * ws.length) = false) : StackForm c (writeWords m a ws) where
  wf := writeWords_wf h.wf a ws
  outside x hx := by
    by_cases hpush : ∃ k, k < 8 * ws.length ∧ x = a + BitVec.ofNat 64 k
    · obtain ⟨k, hk, rfl⟩ := hpush
      exact inTable_of_not_touchesTable htable hk
    · rw [readByte_writeWords_other m x.isLt fun k hk e => hpush ⟨k, hk, BitVec.eq_of_toNat_eq e⟩] at hx
      exact h.outside x hx

/-- Entering a handler pushes words that do not touch the table (log 11). -/
theorem stackForm_enterHandler {v : Vec} {err : BitVec 64} {g : Gate} {s t : State}
    (hs : StackForm s.cfg s.consumer.stack) (h : enterHandler v err g s = .next t) :
    StackForm t.cfg t.consumer.stack := by
  obtain ⟨flags, -, htable, rfl⟩ := enterHandler_next h
  exact stackForm_writeWords hs htable

theorem step_keeps_stackForm {s t : State} (hs : StackForm s.cfg s.consumer.stack) (h : step s = .next t) :
    StackForm t.cfg t.consumer.stack := by
  obtain hstack | ⟨v, err, g, henter⟩ := step_stack h
  · rwa [hstack, configurationNeverChanges s t h]
  · exact stackForm_enterHandler (s := turnTaken s) hs henter

/-! ### The form of both memories -/

theorem memoryInv_iff {s : State} : MemoryInv s ↔ TableForm s.cfg s.mem ∧ StackForm s.cfg s.consumer.stack :=
  ⟨fun h => ⟨⟨h.table, h.inside, h.whole⟩, h.stack, h.outside⟩,
    fun ⟨htable, hstack⟩ => ⟨htable.wf, hstack.wf, htable.inside, hstack.outside, htable.whole⟩⟩

/-- Settles O40: each of the two memories keeps its form. -/
theorem stepKeepsMemoryInv : Obligations.StepKeepsMemoryInv := by
  intro s t hs h
  obtain ⟨htable, hstack⟩ := memoryInv_iff.1 hs
  exact memoryInv_iff.2 ⟨step_keeps_tableForm htable h, step_keeps_stackForm hstack h⟩

/-! ### The active table (R57, R62, R154, R213) -/

/-- In an active block the only commands whose state check passes are those that write `DOUT` (R172). -/
theorem commandEffect_of_active {i : Instr} {s : State} (ha : activeBit s.status = true) (hcheck : stateFault i s = none) :
    ∃ d, commandEffect i s = s.setDout d := by
  cases i with
  | enc ist handler => exact ⟨_, rfl⟩
  | rdslot vec => exact ⟨_, rfl⟩
  | setgate vec ist handler => simp [stateFault, ha] at hcheck
  | clrall => simp [stateFault, ha] at hcheck
  | load => simp [stateFault, ha] at hcheck

/-- Settles O42: of the five cases of a step only a command could write the table or `IDTR`, and an active block takes none that
does. -/
theorem activeTableNeverChanges : Obligations.ActiveTableNeverChanges := by
  intro s t ha hreset h
  cases stepTo_of_step h with
  | stay => exact ⟨rfl, rfl, ha⟩
  | blockFault f => exact ⟨rfl, rfl, (activeBit_withFault s.status).trans ha⟩
  | command i _ _ hcheck =>
    obtain ⟨d, hd⟩ := commandEffect_of_active (s := turnTaken s) ha hcheck
    rw [hd]
    exact ⟨rfl, rfl, ha⟩
  | consumer c => exact ⟨rfl, rfl, ha⟩
  | reset hnext => exact absurd hnext hreset

/-! ### The lookup after LOAD (R180, R182, R183) -/

@[simp] theorem baseField_payloadOf (base : Addr) : baseField (payloadOf base) = base :=
  BitVec.extractLsb'_append_eq_left

@[simp] theorem limitField_payloadOf (base : Addr) : (limitField (payloadOf base)).toNat = tableLimit := by
  rw [limitField, payloadOf, BitVec.extractLsb'_append_eq_right]
  rfl

/-- The last byte of every slot lies within the payload's limit (R151, R180). -/
theorem slotEnd_not_gt_limit (base : Addr) (v : Vec) : ¬ 16 * v.toNat + 15 > (limitField (payloadOf base)).toNat := by
  have hv : v.toNat < 256 := v.isLt
  rw [limitField_payloadOf, tableLimit]
  omega

/-- The present bit is bit 47 of the descriptor (R70). -/
theorem present_eq_zero_iff (d : Desc) : (decodeGate d).present = 0#1 ↔ d.getLsbD 47 = false := by
  rw [BitVec.eq_of_getLsbD_eq_iff]
  simp [decodeGate]

section
variable {s : State} (h : s.idtr = some (payloadOf (tableBase s.cfg))) {v : Vec}
include h

/-- With the table's payload in `IDTR` a slot without a value is `UNWRITTEN` (R182). -/
theorem gateLookup_of_unwritten (hslot : readSlot s.cfg s.mem v = none) : gateLookup s v = .fault .unwritten := by
  rw [readSlot] at hslot
  simp only [gateLookup, h, if_neg (slotEnd_not_gt_limit _ v), baseField_payloadOf, hslot]

/-- With the table's payload in `IDTR` a slot that holds a value is decoded (R180, R183). -/
theorem gateLookup_of_written {d : Desc} (hslot : readSlot s.cfg s.mem v = some d) :
    gateLookup s v = if d.getLsbD 47 then .gate (decodeGate d) else .fault .notPresent := by
  rw [readSlot] at hslot
  simp only [gateLookup, h, if_neg (slotEnd_not_gt_limit _ v), baseField_payloadOf, hslot, present_eq_zero_iff]
  cases d.getLsbD 47
  · rfl
  · rfl

end

/-- In an active block that meets the invariants `IDTR` holds the table's payload (R27, R36 b, R150). -/
theorem idtr_of_active {s : State} (hstep : StepInv s) (hreg : RegisterInv s) (ha : activeBit s.status = true) :
    s.idtr = some (payloadOf (tableBase s.cfg)) := by
  obtain ⟨p, hp⟩ := Option.isSome_iff_exists.1 (hstep.idtr.trans ha)
  rw [hp, hreg.idtr p hp]

/-- Settles O45: the two cases of a slot, under the payload that LOAD drove. -/
theorem lookupReadsTheSlot : Obligations.LookupReadsTheSlot := by
  intro s v hstep hreg ha
  have hidtr := idtr_of_active hstep hreg ha
  cases hslot : readSlot s.cfg s.mem v with
  | none => exact gateLookup_of_unwritten hidtr hslot
  | some d => exact gateLookup_of_written hidtr hslot

/-! ### The waiting block (log 7) -/

theorem blockStep_of_no_word {s : State} (h : s.program[s.ci]? = none) : blockStep s = .next s := by
  rw [blockStep, nextWord, h]

/-- Settles O28: the block's turn leaves the state as it was but for the turn taken off. -/
theorem blockWaitsForIssuer : Obligations.BlockWaitsForIssuer := by
  intro s hword
  have hwait : blockNext s → step s = .next (turnTaken s) := fun hnext => by
    rw [step_of_blockNext hnext, blockStep_of_no_word (s := turnTaken s) hword]
  refine ⟨fun hnil => ?_, fun rest hcons => ?_⟩
  · rw [hwait (.inl hnil), turnTaken_of_nil hnil]
  · rw [hwait (.inr ⟨rest, hcons⟩), turnTaken_of_cons hcons]
    rfl

end Sys2Proof.Machine
end

section
/-! PROOF. The statements of 30_encoding.md: the command word and its decoder (R80-R88), the assembler's words (R89), the fields
of a descriptor (R70-R74), and the order of the decoder's faults (R172). -/

namespace Sys2Proof.Machine

/-! ### The opcode map (R84, R87) -/

/-- The opcode map is the inverse of the opcodes' numbers. -/
theorem opcodeOf_eq_some_iff {bits : BitVec 4} {op : Opcode} : opcodeOf bits = some op ↔ bits = opcodeBits op := by
  refine ⟨fun h => ?_, fun h => by rw [h, Laws.CommandWord.opcodeOf_opcodeBits]⟩
  revert bits
  cases op <;> decide

/-- The numbers that are no opcode's. -/
theorem opcodeOf_eq_none_iff {bits : BitVec 4} : opcodeOf bits = none ↔ bits.toNat = 0 ∨ 6 ≤ bits.toNat := by
  revert bits
  decide

theorem exists_opcode_iff {p : Opcode → Prop} :
    (∃ op, p op) ↔ p .enc ∨ p .setgate ∨ p .clrall ∨ p .rdslot ∨ p .load := by
  refine ⟨fun ⟨op, h⟩ => ?_, ?_⟩
  · cases op <;> simp [h]
  · rintro (h | h | h | h | h)
    all_goals exact ⟨_, h⟩

@[simp] theorem opcode_instrOf (op : Opcode) (w : Cmd) : (instrOf op w).opcode = op := by
  cases op <;> rfl

/-! ### What the decoder answers (R86) -/

theorem decode_of_illegal {w : Cmd} (h : opcodeOf (opField w) = none) : decode w = .blockFault .illegalOp := by
  rw [decode, h]

theorem decode_of_opcode {w : Cmd} {op : Opcode} (h : opcodeOf (opField w) = some op) :
    decode w = if w &&& mbz op = 0#96 then .command (instrOf op w) else .blockFault .rsvdBits := by
  rw [decode, h]

theorem decode_eq_illegalOp_iff {w : Cmd} :
    decode w = .blockFault .illegalOp ↔ (opField w).toNat = 0 ∨ 6 ≤ (opField w).toNat := by
  rw [← opcodeOf_eq_none_iff]
  refine ⟨fun h => ?_, decode_of_illegal⟩
  cases hop : opcodeOf (opField w) with
  | none => rfl
  | some op =>
    rw [decode_of_opcode hop] at h
    split at h <;> cases h

theorem decode_eq_rsvdBits_iff {w : Cmd} :
    decode w = .blockFault .rsvdBits ↔ ∃ op, opField w = opcodeBits op ∧ w &&& mbz op ≠ 0#96 := by
  simp only [← opcodeOf_eq_some_iff]
  cases hop : opcodeOf (opField w) with
  | none => simp [decode_of_illegal hop]
  | some op => simp [decode_of_opcode hop]

/-- A word is a command exactly when it has the command's opcode, none of its must-be-zero bits, and its operands. -/
theorem decode_eq_command_iff {w : Cmd} {i : Instr} :
    decode w = .command i ↔
      (opField w = opcodeBits i.opcode ∧ w &&& mbz i.opcode = 0#96) ∧ instrOf i.opcode w = i := by
  rw [← opcodeOf_eq_some_iff]
  constructor
  · intro h
    cases hop : opcodeOf (opField w) with
    | none =>
      rw [decode_of_illegal hop] at h
      cases h
    | some op =>
      rw [decode_of_opcode hop] at h
      split at h
      case isTrue hmbz =>
        cases h
        rw [opcode_instrOf]
        exact ⟨⟨rfl, hmbz⟩, rfl⟩
      case isFalse => cases h
  · rintro ⟨⟨hop, hmbz⟩, hi⟩
    rw [decode_of_opcode hop, if_pos hmbz, hi]

/-- Settles O3: `OP` is bits 3:0. -/
theorem illegalOpcodesRefused : Obligations.IllegalOpcodesRefused := fun _ => decode_eq_illegalOp_iff

/-- Settles O4: one disjunct for each opcode, with its number and its mask. -/
theorem reservedBitsRefused : Obligations.ReservedBitsRefused := fun _ => decode_eq_rsvdBits_iff.trans exists_opcode_iff

/-! ### The rows of the opcode table (R86) -/

/-- The low four bits of a word are its opcode field. -/
theorem and_opMask (w : Cmd) : w &&& 0xF#96 = (opField w).setWidth 96 := by
  apply BitVec.eq_of_toNat_eq
  rw [opField, ← BitVec.setWidth_eq_extractLsb' (by decide), BitVec.toNat_setWidth_of_le (by decide), BitVec.toNat_and,
    BitVec.toNat_setWidth]
  exact Nat.and_two_pow_sub_one_eq_mod w.toNat 4

/-- A word masked by a row's must-be-zero bits and the opcode's is the opcode's number exactly when it has the opcode and no
must-be-zero bit. -/
theorem matchesRow_iff (w : Cmd) (op : Opcode) :
    opField w = opcodeBits op ∧ w &&& mbz op = 0#96 ↔ w &&& (mbz op ||| 0xF#96) = (opcodeBits op).setWidth 96 := by
  have hmask : (mbz op ||| 0xF#96) &&& 0xF#96 = 0xF#96 ∧ (mbz op ||| 0xF#96) &&& mbz op = mbz op := by
    cases op <;> decide
  have hvalue : (opcodeBits op).setWidth 96 &&& 0xF#96 = (opcodeBits op).setWidth 96 ∧
      (opcodeBits op).setWidth 96 &&& mbz op = 0#96 := by
    cases op <;> decide
  constructor
  · rintro ⟨hop, hmbz⟩
    rw [BitVec.and_or_distrib_left, hmbz, and_opMask, hop, BitVec.zero_or]
  · intro h
    have hop := congrArg (· &&& 0xF#96) h
    have hmbz := congrArg (· &&& mbz op) h
    simp only [BitVec.and_assoc, hmask, hvalue, and_opMask] at hop hmbz
    exact ⟨by simpa using congrArg (BitVec.setWidth 4) hop, hmbz⟩

/-- Settles O5: each row's mask is the opcode's must-be-zero bits and the opcode field. -/
theorem opcodeTableRowsDecode : Obligations.OpcodeTableRowsDecode := by
  intro w
  refine ⟨fun ist handler => ?_, fun vec ist handler => ?_, ?_, fun vec => ?_, ?_⟩
  · refine decode_eq_command_iff.trans (and_congr (matchesRow_iff w .enc) ?_)
    simp [instrOf, Instr.opcode, istField, handlerField, eq_comm]
  · refine decode_eq_command_iff.trans (and_congr (matchesRow_iff w .setgate) ?_)
    simp [instrOf, Instr.opcode, vecField, istField, handlerField, eq_comm]
  · exact (decode_eq_command_iff.trans (and_iff_left rfl)).trans (matchesRow_iff w .clrall)
  · refine decode_eq_command_iff.trans (and_congr (matchesRow_iff w .rdslot) ?_)
    simp [instrOf, Instr.opcode, vecField, eq_comm]
  · exact (decode_eq_command_iff.trans (and_iff_left rfl)).trans (matchesRow_iff w .load)

/-! ### The word made from fields (R80, R85) -/

section
variable (op : Opcode) (vec : Vec) (ist : Ist) (handler : Addr)

@[simp] theorem istField_cmdWord : istField (cmdWord op vec ist handler) = ist := by
  refine BitVec.eq_of_getLsbD_eq fun i hi => ?_
  rw [istField, BitVec.getLsbD_extractLsb', Laws.CommandWord.getLsbD_cmdWord]
  grind

@[simp] theorem vecField_cmdWord : vecField (cmdWord op vec ist handler) = vec := by
  refine BitVec.eq_of_getLsbD_eq fun i hi => ?_
  rw [vecField, BitVec.getLsbD_extractLsb', Laws.CommandWord.getLsbD_cmdWord]
  grind

@[simp] theorem handlerField_cmdWord : handlerField (cmdWord op vec ist handler) = handler := by
  refine BitVec.eq_of_getLsbD_eq fun i hi => ?_
  rw [handlerField, BitVec.getLsbD_extractLsb', Laws.CommandWord.getLsbD_cmdWord]
  grind

end

/-- The word of every command carries the command's opcode and none of its must-be-zero bits. -/
theorem encode_fields (i : Instr) : opField (encode i) = opcodeBits i.opcode ∧ encode i &&& mbz i.opcode = 0#96 := by
  have hlaw : Laws.CommandWord.Statement i := by
    cases i with
    | enc ist handler => exact Laws.CommandWord.enc ist handler
    | setgate vec ist handler => exact Laws.CommandWord.setgate vec ist handler
    | clrall => exact Laws.CommandWord.clrall
    | rdslot vec => exact Laws.CommandWord.rdslot vec
    | load => exact Laws.CommandWord.load
  exact And.imp_left opcodeOf_eq_some_iff.1 hlaw

/-- The operands of a command are the fields of its word. -/
theorem instrOf_encode (i : Instr) : instrOf i.opcode (encode i) = i := by
  cases i <;> simp [instrOf, Instr.opcode, encode]

/-- Settles O1: `encode_fields` for the opcode and the reserved bits, `instrOf_encode` for the operands. -/
theorem decodeEncodeRoundTrip : Obligations.DecodeEncodeRoundTrip := fun i =>
  decode_eq_command_iff.2 ⟨encode_fields i, instrOf_encode i⟩

/-- A field that lies inside a mask is zero in a word without the mask's bits. -/
theorem field_eq_zero {w mask : Cmd} (h : w &&& mask = 0#96) {start len : Nat}
    (hmask : mask.extractLsb' start len = BitVec.allOnes len) : w.extractLsb' start len = 0#len := by
  rw [← BitVec.and_allOnes (x := w.extractLsb' start len), ← hmask, ← BitVec.extractLsb'_and, h, BitVec.extractLsb'_zero]

/-- A word is its six fields, one after another. -/
theorem append_fields (w : Cmd) :
    handlerField w ++ w.extractLsb' 16 16 ++ vecField w ++ w.extractLsb' 7 1 ++ istField w ++ opField w = w := by
  simp only [handlerField, vecField, istField, opField]
  iterate 5 rw [BitVec.extractLsb'_append_extractLsb'_eq_extractLsb' (by rfl)]
  exact BitVec.extractLsb'_eq_self

/-- A word of a legal opcode without must-be-zero bits is the word of its fields: every mask has `RSV0` and `RSV1` (R85). -/
theorem cmdWord_of_fields {w : Cmd} {op : Opcode} (hop : opField w = opcodeBits op) (hmbz : w &&& mbz op = 0#96) :
    cmdWord op (vecField w) (istField w) (handlerField w) = w := by
  have hrsv0 : w.extractLsb' 7 1 = 0#1 := field_eq_zero hmbz (by cases op <;> decide)
  have hrsv1 : w.extractLsb' 16 16 = 0#16 := field_eq_zero hmbz (by cases op <;> decide)
  rw [cmdWord, ← hop, ← hrsv0, ← hrsv1, append_fields]

/-- It is the word of its command too: the fields that the command does not use are in its mask (R85). -/
theorem encode_instrOf {w : Cmd} {op : Opcode} (hop : opField w = opcodeBits op) (hmbz : w &&& mbz op = 0#96) :
    encode (instrOf op w) = w := by
  have hword := cmdWord_of_fields hop hmbz
  cases op with
  | enc =>
    have hvec : vecField w = 0#8 := field_eq_zero hmbz (by decide)
    rwa [hvec] at hword
  | setgate => exact hword
  | rdslot =>
    have hist : istField w = 0#3 := field_eq_zero hmbz (by decide)
    have hhandler : handlerField w = 0#64 := field_eq_zero hmbz (by decide)
    rwa [hist, hhandler] at hword
  | clrall | load =>
    have hvec : vecField w = 0#8 := field_eq_zero hmbz (by decide)
    have hist : istField w = 0#3 := field_eq_zero hmbz (by decide)
    have hhandler : handlerField w = 0#64 := field_eq_zero hmbz (by decide)
    rwa [hvec, hist, hhandler] at hword

/-- Settles O2: a word that decodes has the command's opcode and no must-be-zero bit. -/
theorem encodeDecodeRoundTrip : Obligations.EncodeDecodeRoundTrip := by
  intro w i h
  obtain ⟨⟨hop, hmbz⟩, hi⟩ := decode_eq_command_iff.1 h
  rw [← hi, encode_instrOf hop hmbz]

/-- Settles O6: the decoder run on the seven words. -/
theorem specWordsDecode : Obligations.SpecWordsDecode := by
  unfold Obligations.SpecWordsDecode
  decide

/-! ### The assembler's words (R89) -/

/-- The word of a command's fields is R89's formula. -/
theorem cmdWord_eq_ofNat (op : Opcode) (vec : Vec) (ist : Ist) (handler : Addr) :
    cmdWord op vec ist handler =
      BitVec.ofNat 96 (handler.toNat <<< 32 ||| vec.toNat <<< 8 ||| ist.toNat <<< 4 ||| (opcodeBits op).toNat) := by
  have hword : (cmdWord op vec ist handler).toNat =
      handler.toNat <<< 32 ||| vec.toNat <<< 8 ||| ist.toNat <<< 4 ||| (opcodeBits op).toNat := by
    unfold cmdWord
    iterate 5 rw [BitVec.toNat_append]
    simp [Nat.shiftLeft_or_distrib, ← Nat.shiftLeft_add]
  rw [← hword, BitVec.ofNat_toNat, BitVec.setWidth_eq]

/-- Operands in range are the numbers in the formula. -/
theorem cmdWord_ofNat (op : Opcode) {v h i : Nat} (hv : v < 256) (hi : i < 8) (hh : h < 2 ^ 64) :
    cmdWord op (BitVec.ofNat 8 v) (BitVec.ofNat 3 i) (BitVec.ofNat 64 h) =
      BitVec.ofNat 96 (h <<< 32 ||| v <<< 8 ||| i <<< 4 ||| (opcodeBits op).toNat) := by
  rw [cmdWord_eq_ofNat, BitVec.toNat_ofNat, BitVec.toNat_ofNat, BitVec.toNat_ofNat, Nat.mod_eq_of_lt hv, Nat.mod_eq_of_lt hi,
    Nat.mod_eq_of_lt hh]

/-- A line that stands for one command is that command's word, and nothing where an operand is out of range. -/
theorem assemble_of_expand {c : Config} {line : Asm} {i : Instr} {w : Cmd} {p : Prop} [Decidable p]
    (hexpand : expand c line = [i]) (hwf : line.wellFormed = true ↔ p) (hword : p → encode i = w) :
    assemble c line = if p then some [w] else none := by
  rw [assemble, hexpand]
  by_cases hp : p
  · rw [if_pos (hwf.2 hp), if_pos hp, List.map_singleton, hword hp]
  · rw [if_neg (mt hwf.1 hp), if_neg hp]

/-- Settles O7: `cmdWord_ofNat` where the operands are in range, an absent one being 0. -/
theorem assemblerWords : Obligations.AssemblerWords := by
  intro c v h i
  refine ⟨?_, ?_, rfl, ?_, rfl⟩
  · refine assemble_of_expand rfl (by simp [Asm.wellFormed, handlerInRange, istInRange]) fun ⟨hh, hi⟩ => ?_
    simpa [encode, opcodeBits] using cmdWord_ofNat .enc (v := 0) (by decide) hi hh
  · refine assemble_of_expand rfl (by simp [Asm.wellFormed, vecInRange, handlerInRange, istInRange, and_assoc])
      fun ⟨hv, hh, hi⟩ => ?_
    exact cmdWord_ofNat .setgate hv hi hh
  · refine assemble_of_expand rfl (by simp [Asm.wellFormed, vecInRange]) fun hv => ?_
    simpa [encode, opcodeBits] using cmdWord_ofNat .rdslot (h := 0) (i := 0) hv (by decide) (by decide)

/-! ### The fields of a descriptor (R70-R74) -/

/-- One field above another adds its value, shifted by the width below. -/
theorem toNat_append_eq_add {m n : Nat} (x : BitVec m) (y : BitVec n) : (x ++ y).toNat = x.toNat * 2 ^ n + y.toNat := by
  rw [BitVec.toNat_append, ← Nat.shiftLeft_add_eq_or_of_lt y.isLt, Nat.shiftLeft_eq]

/-- Settles O11: the value of each field, at the sum of the widths below it. -/
theorem gateLayout : Obligations.GateLayout := by
  intro h ist sel
  have hh : h.toNat < 2 ^ 64 := h.isLt
  have hattr : attrByte.toNat = 0x8E := by decide
  unfold encodeGate
  iterate 7 rw [toNat_append_eq_add]
  simp only [hattr, BitVec.extractLsb'_toNat, Nat.shiftRight_eq_div_pow, BitVec.toNat_zero]
  omega

/-- A descriptor is its fields, one after another (R70, R101). -/
theorem append_gateFields (d : Desc) :
    (decodeGate d).rsvHi ++ (decodeGate d).offset.extractLsb' 32 32 ++ (decodeGate d).offset.extractLsb' 16 16 ++
      (decodeGate d).attr ++ (decodeGate d).rsvIst ++ (decodeGate d).ist ++ (decodeGate d).sel ++
        (decodeGate d).offset.extractLsb' 0 16 = d := by
  have hhigh : (decodeGate d).offset.extractLsb' 32 32 = d.extractLsb' 64 32 :=
    (BitVec.extractLsb'_append_eq_of_le (by decide)).trans BitVec.extractLsb'_append_eq_left
  have hmid : (decodeGate d).offset.extractLsb' 16 16 = d.extractLsb' 48 16 :=
    (BitVec.extractLsb'_append_eq_of_le (by decide)).trans BitVec.extractLsb'_append_eq_right
  have hlow : (decodeGate d).offset.extractLsb' 0 16 = d.extractLsb' 0 16 := BitVec.extractLsb'_append_eq_right
  rw [hhigh, hmid, hlow]
  simp only [decodeGate]
  iterate 7 rw [BitVec.extractLsb'_append_extractLsb'_eq_extractLsb' (by rfl)]
  exact BitVec.extractLsb'_eq_self

/-- Settles O12: a descriptor is its fields, so the fields of `NPDESC` are those of no other. -/
theorem notPresentDescriptor : Obligations.NotPresentDescriptor := by
  refine ⟨rfl, fun d => ⟨?_, ?_⟩⟩
  · rintro rfl
    decide
  · rintro ⟨-, hattr, hoffset, hsel, hist, hrsvIst, hrsvHi⟩
    rw [← append_gateFields d, hattr, hoffset, hsel, hist, hrsvIst, hrsvHi]
    decide

/-! ### The order of the decoder's faults (R172) -/

theorem takeWord_of_blockFault {w : Cmd} {f : BlockFault} (h : decode w = .blockFault f) {s : State}
    (hclear : faultBit s.status = false) : takeWord w s = .next (raiseBlockFault f s) := by
  rw [takeWord, h]
  exact takeCommand_of_clear hclear

/-- Settles O26: the block's turn raises the fault the decoder answers, active or not. -/
theorem decodeFaultsComeFirst : Obligations.DecodeFaultsComeFirst := by
  intro s w hnil hclear hword
  have hfault : ∀ f, decode w = .blockFault f → step s = .next (raiseBlockFault f s) := fun f hdecode => by
    rw [step_of_blockNext (.inl hnil), turnTaken_of_nil hnil, blockStep_of_word hword,
      takeWord_of_blockFault hdecode hclear]
  exact ⟨fun hillegal => hfault .illegalOp (decode_eq_illegalOp_iff.2 hillegal), hfault .rsvdBits⟩

end Sys2Proof.Machine
end

section
/-! PROOF. The statements of 40_encoder.md: what an encoded descriptor decodes to (R102, R103, R104), the bits a stack index
stands at (R104), and ENC (R105). -/

namespace Sys2Proof.Machine

/-! ### Words made of fields -/

/-- Two words cut at one place are equal exactly when their parts are. -/
theorem append_eq_append_iff {m n : Nat} {x x' : BitVec m} {y y' : BitVec n} :
    x ++ y = x' ++ y' ↔ x = x' ∧ y = y' := by
  refine ⟨fun h => ⟨?_, ?_⟩, fun ⟨hx, hy⟩ => by rw [hx, hy]⟩
  · rw [← BitVec.extractLsb'_append_eq_left (a := x) (b := y), h, BitVec.extractLsb'_append_eq_left]
  · rw [← BitVec.extractLsb'_append_eq_right (a := x) (b := y), h, BitVec.extractLsb'_append_eq_right]

/-- An address is the three parts that a descriptor keeps of it (R70). -/
theorem append_addressParts (h : Addr) : h.extractLsb' 32 32 ++ h.extractLsb' 16 16 ++ h.extractLsb' 0 16 = h := by
  iterate 2 rw [BitVec.extractLsb'_append_extractLsb'_eq_extractLsb' (by rfl)]
  exact BitVec.extractLsb'_eq_self

/-- The attribute byte is its fields, with bit 44 between the DPL and the type (R73, R101). -/
theorem append_attrFields (d : Desc) :
    (decodeGate d).present ++ (decodeGate d).dpl ++ d.extractLsb' 44 1 ++ (decodeGate d).gateType = (decodeGate d).attr := by
  simp only [decodeGate]
  iterate 3 rw [BitVec.extractLsb'_append_extractLsb'_eq_extractLsb' (by rfl)]

/-! ### What an encoded descriptor decodes to (R100-R104) -/

/-- A descriptor is its fields, one after another, and `encodeGate` writes them one after another, so they agree one by one. -/
theorem fields_of_eq_encodeGate {d : Desc} {h : Addr} {ist : Ist} {sel : Selector} (hd : d = encodeGate h ist sel) :
    (decodeGate d).offset = h ∧ (decodeGate d).sel = sel ∧ (decodeGate d).ist = ist ∧ (decodeGate d).rsvIst = 0#5 ∧
      (decodeGate d).attr = attrByte ∧ (decodeGate d).rsvHi = 0#32 := by
  rw [← append_gateFields d, encodeGate] at hd
  iterate 7 rw [append_eq_append_iff] at hd
  obtain ⟨⟨⟨⟨⟨⟨⟨hrsvHi, hhigh⟩, hmid⟩, hattr⟩, hrsvIst⟩, hist⟩, hsel⟩, hlow⟩ := hd
  have hoffset : (decodeGate d).offset = h := by
    rw [← append_addressParts (decodeGate d).offset, hhigh, hmid, hlow, append_addressParts]
  exact ⟨hoffset, hsel, hist, hrsvIst, hattr, hrsvHi⟩

/-- The fields inside the attribute byte of R73. -/
theorem attrFields_of_attr {d : Desc} (hd : (decodeGate d).attr = attrByte) :
    (decodeGate d).present = 1#1 ∧ (decodeGate d).dpl = 0#2 ∧ d.extractLsb' 44 1 = 0#1 ∧ (decodeGate d).gateType = 0xE#4 := by
  rw [← append_attrFields d, attrByte] at hd
  iterate 3 rw [append_eq_append_iff] at hd
  obtain ⟨⟨⟨hpresent, hdpl⟩, hzero⟩, htype⟩ := hd
  exact ⟨hpresent, hdpl, hzero, htype⟩

/-- Decoding an encoded descriptor gives the three operands back, and a constant in every other field. -/
@[simp] theorem decodeGate_encodeGate (h : Addr) (ist : Ist) (sel : Selector) :
    decodeGate (encodeGate h ist sel) =
      { offset := h, sel := sel, ist := ist, rsvIst := 0#5, attr := 0x8E#8, gateType := 0xE#4, dpl := 0#2, present := 1#1,
        rsvHi := 0#32 } := by
  obtain ⟨hoffset, hsel, hist, hrsvIst, hattr, hrsvHi⟩ := fields_of_eq_encodeGate (d := encodeGate h ist sel) rfl
  obtain ⟨hpresent, hdpl, -, htype⟩ := attrFields_of_attr hattr
  exact (Gate.mk.injEq ..).mpr ⟨hoffset, hsel, hist, hrsvIst, hattr, htype, hdpl, hpresent, hrsvHi⟩

/-- The one bit of an encoded descriptor that is in no field `decode` reads but `attr` (R73). -/
theorem getLsbD_encodeGate_44 (h : Addr) (ist : Ist) (sel : Selector) : (encodeGate h ist sel).getLsbD 44 = false := by
  have hattr : (decodeGate (encodeGate h ist sel)).attr = attrByte := by rw [decodeGate_encodeGate]; rfl
  obtain ⟨-, -, hzero, -⟩ := attrFields_of_attr hattr
  simpa using congrArg (BitVec.getLsbD · 0) hzero

/-- Settles O8: the three parts of the address stand where `decodeGate` reads them. -/
theorem gateAddressRoundTrip : Obligations.GateAddressRoundTrip := fun h ist sel => by
  rw [decodeGate_encodeGate]

/-- Settles O9: the constants of `decodeGate_encodeGate`, and bit 44 inside the attribute byte. -/
theorem gateAttributesFixed : Obligations.GateAttributesFixed := by
  intro h ist sel
  rw [decodeGate_encodeGate]
  exact ⟨rfl, rfl, rfl, rfl, rfl, getLsbD_encodeGate_44 h ist sel, rfl⟩

/-! ### The bits a stack index stands at (R104) -/

/-- Every field but the index is the same in both descriptors and cancels; 32 bits lie below the index. -/
theorem encodeGate_xor_encodeGate (h : Addr) (sel : Selector) (i j : Ist) :
    encodeGate h i sel ^^^ encodeGate h j sel = (i ^^^ j).setWidth 128 <<< 32 := by
  have hindex : (i ^^^ j).toNat < 2 ^ 3 := (i ^^^ j).isLt
  refine BitVec.eq_of_toNat_eq ?_
  unfold encodeGate
  iterate 7 rw [BitVec.xor_append]
  iterate 7 rw [toNat_append_eq_add]
  simp only [BitVec.xor_self, BitVec.toNat_zero, BitVec.toNat_shiftLeft, BitVec.toNat_setWidth, Nat.shiftLeft_eq]
  omega

/-- Settles O10: the index and the selector are two of the fields that decode back. -/
theorem gateIndexAndSelector : Obligations.GateIndexAndSelector := by
  intro h sel i j
  rw [decodeGate_encodeGate]
  exact ⟨rfl, rfl, encodeGate_xor_encodeGate h sel i j⟩

/-! ### ENC (R105) -/

/-- Settles O15: no state check stands before the effect of ENC, which is all it does but for `CI`. -/
theorem encWritesDout : Obligations.EncWritesDout := by
  intro s ist handler hclear
  rw [exec_eq, hclear]
  rfl

end Sys2Proof.Machine
end

section
/-! PROOF. The statements of 41_table_manager.md: SETGATE (R120), CLRALL (R125), RDSLOT (R130), the population set (R135-R138),
and the boot sequence that runs it between CLRALL and LOAD (R201). -/

namespace Sys2Proof.Machine

/-! ### A command taken (R170, R172) -/

/-- A command that an unfaulted block takes and whose state check passes has its effect, and `CI` advances. -/
theorem exec_of_passes {i : Instr} {s : State} (hf : faultBit s.status = false) (hcheck : stateFault i s = none) :
    exec i s = .next (advance (commandEffect i s)) := by
  rw [exec_eq, hf, hcheck]
  rfl

/-- A command that an unfaulted block takes and whose state check fails raises that block fault. -/
theorem exec_of_stateFault {i : Instr} {s : State} {f : BlockFault} (hf : faultBit s.status = false)
    (hcheck : stateFault i s = some f) : exec i s = .next (raiseBlockFault f s) := by
  rw [exec_eq, hf, hcheck]
  rfl

/-- The state check of CLRALL and of LOAD passes in a block that is not active. -/
theorem stateFault_clrall_of_inactive {s : State} (ha : activeBit s.status = false) : stateFault .clrall s = none := by
  simp [stateFault, ha]

theorem stateFault_load_of_inactive {s : State} (ha : activeBit s.status = false) : stateFault .load s = none := by
  simp [stateFault, ha]

/-! ### RDSLOT (R130) -/

/-- Settles O19: a slot that holds a value passes the one check of RDSLOT. -/
theorem rdslotCopiesSlot : Obligations.RdslotCopiesSlot := by
  intro s vec d hf hslot
  have hcheck : stateFault (.rdslot vec) s = none := by simp [stateFault, hslot]
  rw [exec_of_passes hf hcheck, commandEffect, hslot]
  rfl

/-- Settles O22: a slot that holds no value fails that check, whose block fault is UNINIT_READ (code 3). -/
theorem unwrittenSlotReadFaults : Obligations.UnwrittenSlotReadFaults := by
  intro s vec hf hslot
  have hcheck : stateFault (.rdslot vec) s = some .uninitRead := by simp [stateFault, hslot]
  rw [exec_of_stateFault hf hcheck, raiseBlockFault_eq_blockFaulted]
  rfl

/-! ### SETGATE and CLRALL in phase POPULATING (R120, R125) -/

/-- Settles O16: the memory SETGATE leaves is the old one with one slot written. -/
theorem setgateWritesOneSlot : Obligations.SetgateWritesOneSlot := by
  intro s vec ist handler hf ha
  exact ⟨_, exec_setgate_of_populating hf ha vec ist handler, readSlot_writeSlot_same _ _ _ _,
    fun w hw => readSlot_writeSlot_other _ _ _ hw, rfl⟩

/-- The table's bytes are those of its slots, so a byte outside every slot stays, at every natural-number address (R52, R53). -/
theorem readByte_clearTable_outside (c : Config) (m : Memory) {x : Nat}
    (h : ∀ v k, k < 16 → x ≠ (slotAddr c v + BitVec.ofNat 64 k).toNat) :
    readByte (clearTable c m) x = readByte m x := by
  by_cases hx : x < 2 ^ 64
  · refine readByte_writeBytes_other m hx fun i hi => ?_
    have hi : i < 4096 := by simpa using hi
    have hv : (BitVec.ofNat 8 (i / 16)).toNat = i / 16 := by
      rw [BitVec.toNat_ofNat]
      omega
    have hbyte := h (BitVec.ofNat 8 (i / 16)) (i % 16) (Nat.mod_lt i (by decide))
    rwa [slotAddr_byte, hv, Nat.div_add_mod] at hbyte
  · exact readByte_writeBytes_high m (by simp) (Nat.le_of_not_lt hx)

/-- Settles O18: the memory CLRALL leaves is the cleared table. -/
theorem clrallClearsEverySlot : Obligations.ClrallClearsEverySlot := by
  intro s hf ha
  exact ⟨_, exec_of_passes hf (stateFault_clrall_of_inactive ha), readSlot_clearTable s.cfg s.mem,
    fun a hout => readByte_clearTable_outside s.cfg s.mem hout, rfl⟩

/-! ### Sequences of SETGATEs (R120, R138) -/

theorem phaseOf_eq_populating_iff {status : BitVec 32} :
    phaseOf status = .populating ↔ faultBit status = false ∧ activeBit status = false := by
  cases hf : faultBit status
  · cases ha : activeBit status <;> simp [phaseOf, hf, ha]
  · simp [phaseOf, hf]

theorem execAll_cons_of_next {i : Instr} {s t : State} (h : exec i s = .next t) (rest : List Instr) :
    execAll (i :: rest) s = execAll rest t := by
  rw [execAll, h]

/-- A sequence that completes can be followed by another. -/
theorem execAll_append_of_next {is : List Instr} {s t : State} (h : execAll is s = .next t) (js : List Instr) :
    execAll (is ++ js) s = execAll js t := by
  induction is generalizing s with
  | nil =>
    cases h
    rfl
  | cons i is ih =>
    obtain ⟨u, hu⟩ := exec_answers i s
    rw [execAll_cons_of_next hu] at h
    rw [List.cons_append, execAll_cons_of_next hu, ih h]

/-- What one SETGATE assigns to a slot: the "(trap-number → handler, alternate-stack-index)" of the source. -/
structure Assignment where
  vec : Vec
  ist : Ist
  handler : Addr

/-- The SETGATE of an assignment. -/
def Assignment.command (r : Assignment) : Instr := .setgate r.vec r.ist r.handler

/-- What one SETGATE for each assignment makes of `s`, as far as the table and the phase go: each slot assigned holds its
descriptor, every other slot is as it was, `STATUS` too, and `CI` counts the commands. -/
structure Assigned (rows : List Assignment) (s t : State) : Prop where
  written : ∀ r ∈ rows, readSlot t.cfg t.mem r.vec = some (encodeGate r.handler r.ist s.cfg.kcodeSel)
  kept : ∀ v, v ∉ rows.map Assignment.vec → readSlot t.cfg t.mem v = readSlot s.cfg s.mem v
  cfg_eq : t.cfg = s.cfg
  status_eq : t.status = s.status
  ci_eq : t.ci = s.ci + rows.length

/-- One more SETGATE before the others, to a slot that none of them writes. -/
theorem Assigned.cons {r : Assignment} {rows : List Assignment} {s t u : State} (hr : Assigned [r] s u)
    (hnew : r.vec ∉ rows.map Assignment.vec) (hrows : Assigned rows u t) : Assigned (r :: rows) s t where
  written q hq := by
    obtain rfl | hq := List.mem_cons.1 hq
    · rw [hrows.kept _ hnew, hr.written _ List.mem_cons_self]
    · rw [hrows.written q hq, hr.cfg_eq]
  kept v hv := by
    rw [List.map_cons, List.mem_cons, not_or] at hv
    obtain ⟨hne, hrest⟩ := hv
    rw [hrows.kept v hrest, hr.kept v (by simpa using hne)]
  cfg_eq := hrows.cfg_eq.trans hr.cfg_eq
  status_eq := hrows.status_eq.trans hr.status_eq
  ci_eq := by
    rw [hrows.ci_eq, hr.ci_eq, List.length_singleton, List.length_cons]
    omega

/-- One SETGATE in phase POPULATING, as an assignment. -/
theorem exec_command_assigned (r : Assignment) {s : State} (hp : phaseOf s.status = .populating) :
    ∃ t, exec r.command s = .next t ∧ Assigned [r] s t := by
  obtain ⟨hf, ha⟩ := phaseOf_eq_populating_iff.1 hp
  obtain ⟨t, hexec, hwritten, hkept, hframe⟩ := setgateWritesOneSlot s r.vec r.ist r.handler hf ha
  exact ⟨t, hexec, by simpa using hwritten, fun v hv => hkept v (by simpa using hv), by rw [hframe], by rw [hframe],
    by rw [hframe]; rfl⟩

/-- SETGATEs to different slots complete in phase POPULATING, and each slot keeps what its own SETGATE wrote. -/
theorem execAll_commands_assigned {rows : List Assignment} (hnodup : (rows.map Assignment.vec).Nodup) {s : State}
    (hp : phaseOf s.status = .populating) :
    ∃ t, execAll (rows.map Assignment.command) s = .next t ∧ Assigned rows s t := by
  induction rows generalizing s with
  | nil => exact ⟨s, rfl, by simp, fun _ _ => rfl, rfl, rfl, rfl⟩
  | cons r rows ih =>
    obtain ⟨hnew, hnodup⟩ := List.nodup_cons.1 hnodup
    obtain ⟨u, hexec, hu⟩ := exec_command_assigned r hp
    obtain ⟨t, hrest, ht⟩ := ih hnodup (hu.status_eq.symm ▸ hp)
    exact ⟨t, (execAll_cons_of_next hexec _).trans hrest, hu.cons hnew ht⟩

/-! ### The population set (R135-R138) -/

/-- The six assignments of R135. -/
def populationSet (c : Config) (hDf hNp hSs hGp hPf hApp : Addr) : List Assignment :=
  [⟨8#8, dfIst c, hDf⟩, ⟨11#8, 0#3, hNp⟩, ⟨12#8, 0#3, hSs⟩, ⟨13#8, 0#3, hGp⟩, ⟨14#8, 0#3, hPf⟩, ⟨33#8, 0#3, hApp⟩]

theorem dfIst_ne_zero (c : Config) : dfIst c ≠ 0#3 := by
  have h : ∀ n : Fin 7, BitVec.ofNat 3 (n.val + 1) ≠ 0#3 := by decide
  exact h c.dfIstPred

section
variable (c : Config) (hDf hNp hSs hGp hPf hApp : Addr)

/-- `idt_populate` is the SETGATEs of the population set. -/
theorem idtPopulate_eq_map :
    idtPopulate c hDf hNp hSs hGp hPf hApp = (populationSet c hDf hNp hSs hGp hPf hApp).map Assignment.command := rfl

theorem populationSet_vecs :
    (populationSet c hDf hNp hSs hGp hPf hApp).map Assignment.vec = [8#8, 11#8, 12#8, 13#8, 14#8, 33#8] := rfl

theorem populationSet_nodup : ((populationSet c hDf hNp hSs hGp hPf hApp).map Assignment.vec).Nodup := by
  rw [populationSet_vecs]
  decide

/-- The rows that the statements list: each vector of the population set with its handler. -/
theorem populationSet_handlers :
    (populationSet c hDf hNp hSs hGp hPf hApp).map (fun r => (r.vec, r.handler)) =
      [(8#8, hDf), (11#8, hNp), (12#8, hSs), (13#8, hGp), (14#8, hPf), (33#8, hApp)] := rfl

/-- Only the double fault's row has an alternate-stack index (R136). -/
theorem populationSet_ist {r : Assignment} (h : r ∈ populationSet c hDf hNp hSs hGp hPf hApp) :
    r.ist = if r.vec = 8#8 then dfIst c else 0#3 := by
  simp only [populationSet, List.mem_cons, List.not_mem_nil, or_false] at h
  obtain rfl | rfl | rfl | rfl | rfl | rfl := h
  all_goals rfl

end

/-- `idt_populate` completes in phase POPULATING and makes the six assignments. -/
theorem execAll_idtPopulate {s : State} (hDf hNp hSs hGp hPf hApp : Addr) (hp : phaseOf s.status = .populating) :
    ∃ t, execAll (idtPopulate s.cfg hDf hNp hSs hGp hPf hApp) s = .next t ∧
      Assigned (populationSet s.cfg hDf hNp hSs hGp hPf hApp) s t :=
  execAll_commands_assigned (populationSet_nodup s.cfg hDf hNp hSs hGp hPf hApp) hp

/-- Settles O55: each slot assigned holds the descriptor that decodes to its row. -/
theorem populateAssignsSixSlots : Obligations.PopulateAssignsSixSlots := by
  intro s hDf hNp hSs hGp hPf hApp hp
  obtain ⟨t, hexec, ht⟩ := execAll_idtPopulate hDf hNp hSs hGp hPf hApp hp
  rw [← populationSet_vecs s.cfg hDf hNp hSs hGp hPf hApp, ← populationSet_handlers s.cfg]
  refine ⟨t, hexec, List.forall_mem_map.2 fun r hr => ⟨_, ht.written r hr, ?_⟩, dfIst_ne_zero s.cfg, ht.kept, ?_⟩
  · rw [decodeGate_encodeGate]
    exact ⟨rfl, rfl, populationSet_ist _ _ _ _ _ _ _ hr⟩
  · rw [ht.status_eq, hp]

/-! ### The boot sequence (R201, R214) -/

section
variable {s : State} (h : s.idtr = some (payloadOf (tableBase s.cfg))) {v : Vec}
include h

/-- The lookup of a slot that holds an encoded descriptor gives its gate: the present bit is 1 (R103, R180). -/
theorem gateLookup_of_encodeGate {handler : Addr} {ist : Ist} {sel : Selector}
    (hslot : readSlot s.cfg s.mem v = some (encodeGate handler ist sel)) :
    gateLookup s v = .gate (decodeGate (encodeGate handler ist sel)) := by
  have hpresent : (encodeGate handler ist sel).getLsbD 47 = true := by
    rw [← Bool.not_eq_false, ← present_eq_zero_iff, decodeGate_encodeGate]
    show ¬ 1#1 = 0#1
    decide
  rw [gateLookup_of_written h hslot, if_pos hpresent]

/-- The lookup of a slot that holds `NPDESC` is the fatal `NOT_PRESENT` (R74, R183). -/
theorem gateLookup_of_npDesc (hslot : readSlot s.cfg s.mem v = some npDesc) : gateLookup s v = .fault .notPresent := by
  rw [gateLookup_of_written h hslot]
  rfl

end

/-- The boot sequence completes in phase POPULATING: CLRALL, the six assignments, then the activation. -/
theorem execAll_idtInit {s : State} (hDf hNp hSs hGp hPf hApp : Addr) (hp : phaseOf s.status = .populating) :
    ∃ t, execAll (idtInit s.cfg hDf hNp hSs hGp hPf hApp) s = .next (advance (activate t)) ∧
      Assigned (populationSet s.cfg hDf hNp hSs hGp hPf hApp) (advance (s.setMem (clearTable s.cfg s.mem))) t := by
  obtain ⟨hf, ha⟩ := phaseOf_eq_populating_iff.1 hp
  have hclear := exec_of_passes hf (stateFault_clrall_of_inactive ha)
  obtain ⟨t, hpopulate, ht⟩ :=
    execAll_idtPopulate (s := advance (s.setMem (clearTable s.cfg s.mem))) hDf hNp hSs hGp hPf hApp hp
  obtain ⟨hf, ha⟩ := phaseOf_eq_populating_iff.1 (ht.status_eq.symm ▸ hp)
  have hload := exec_of_passes hf (stateFault_load_of_inactive ha)
  refine ⟨t, ?_, ht⟩
  rw [idtInit, List.cons_append, execAll_cons_of_next hclear]
  exact (execAll_append_of_next hpopulate [.load]).trans (execAll_cons_of_next hload [])

/-- Settles O56: LOAD leaves the table as the assignments made it, over a table of `NPDESC`. -/
theorem bootSequenceBuildsTable : Obligations.BootSequenceBuildsTable := by
  intro s hDf hNp hSs hGp hPf hApp hp
  obtain ⟨t, hexec, ht⟩ := execAll_idtInit hDf hNp hSs hGp hPf hApp hp
  have hidtr : (advance (activate t)).idtr = some (payloadOf (tableBase t.cfg)) := rfl
  rw [← populationSet_vecs s.cfg hDf hNp hSs hGp hPf hApp, ← populationSet_handlers s.cfg]
  refine ⟨_, hexec, ?phase, ?idtr, ?ci, List.forall_mem_map.2 fun r hr => ?gate, fun v hv => ?other⟩
  case phase =>
    rw [advance_status, activate_status, ht.status_eq]
    exact phaseOf_withActive (phaseOf_eq_populating_iff.1 hp).1
  case idtr => rw [hidtr, ht.cfg_eq]; rfl
  case ci => rw [advance_ci, activate_ci, ht.ci_eq]; rfl
  case gate =>
    refine ⟨_, gateLookup_of_encodeGate hidtr (ht.written r hr), ?_⟩
    rw [decodeGate_encodeGate]
    exact ⟨rfl, rfl⟩
  case other =>
    exact gateLookup_of_npDesc hidtr ((ht.kept v hv).trans (readSlot_clearTable s.cfg s.mem v))

end Sys2Proof.Machine
end

section
/-! PROOF. The statements of 42_loader.md: the payload and its limit (R151), LOAD in phase POPULATING (R150), and a second LOAD
(R152). -/

namespace Sys2Proof.Machine

/-! ### The payload (R76, R151) -/

/-- The base stands above the 16 bits of the limit, which is cut nowhere. -/
theorem payloadOf_toNat (base : Addr) : (payloadOf base).toNat = base.toNat * 2 ^ 16 + 4095 := by
  rw [payloadOf, toNat_append_eq_add]
  rfl

/-- Settles O13: the two fields read back, and the value is `payloadOf_toNat`. -/
theorem payloadFields : Obligations.PayloadFields := fun base =>
  ⟨rfl, by decide, limitField_payloadOf base, baseField_payloadOf base, payloadOf_toNat base⟩

/-- `TABLE_BASE` is at most `2^64 - 4096`, so as an address it is the same number (D11). -/
theorem tableBase_toNat (c : Config) : (tableBase c).toNat = c.tableBaseNat.val := by
  rw [tableBase, BitVec.toNat_ofNat, Nat.mod_eq_of_lt (c.tableBaseNat.isLt.trans (by decide))]

/-- The table's payload by its value. -/
theorem payloadOf_tableBase (c : Config) :
    payloadOf (tableBase c) = BitVec.ofNat 80 (c.tableBaseNat.val * 2 ^ 16 + 0x0FFF) := by
  rw [← tableBase_toNat, ← payloadOf_toNat, BitVec.ofNat_toNat, BitVec.setWidth_eq]

/-! ### LOAD (R150, R152) -/

/-- Settles O20: the state check of LOAD reads ACTIVE alone, and the activation drives the table's payload into `IDTR`. -/
theorem loadActivates : Obligations.LoadActivates := by
  intro s hf ha
  rw [exec_of_passes hf (stateFault_load_of_inactive ha), ← payloadOf_tableBase]
  rfl

/-- The state check of LOAD refuses an active block. -/
theorem stateFault_load_of_active {s : State} (ha : activeBit s.status = true) : stateFault .load s = some .reactivate := by
  simp [stateFault, ha]

/-- Whatever LOAD does, the block is active or faulted after it: it was faulted, or a block fault sets FAULT, or the activation
sets ACTIVE. -/
theorem exec_load_active_or_faulted {s t : State} (h : exec .load s = .next t) :
    activeBit t.status = true ∨ faultBit t.status = true := by
  obtain ⟨hfault, rfl⟩ | ⟨-, f, -, rfl⟩ | ⟨-, -, rfl⟩ := exec_next h
  · exact .inr hfault
  · exact .inr (faultBit_withFault s.status)
  · exact .inl (activeBit_withActive s.status)

/-- Settles O23: an active block fails the one check of LOAD, whose block fault is REACTIVATE (code 5). -/
theorem secondLoadFaults : Obligations.SecondLoadFaults := by
  refine ⟨fun s t => exec_load_active_or_faulted, fun s hf ha => ?_⟩
  rw [exec_of_stateFault hf (stateFault_load_of_active ha), raiseBlockFault_eq_blockFaulted]
  rfl

end Sys2Proof.Machine
end

section
/-! PROOF. The statements of 60_exceptions.md: the block faults (R170, R171), and the consumer's traps: the lookup that a trap
starts with (R180-R184), who may raise it (R187, R193, R195), trap entry (R185-R188), and how a handler ends (R189-R191). -/

namespace Sys2Proof.Machine

/-! ### Block faults (R170, R171) -/

/-- No effect of a command sets FAULT: LOAD alone writes STATUS, and it writes the other bit. -/
theorem faultBit_commandEffect (i : Instr) (s : State) : faultBit (commandEffect i s).status = faultBit s.status := by
  by_cases hload : i = .load
  · subst hload
    exact faultBit_withActive s.status
  · rw [commandEffect_status hload]

/-- A state check that fails raises the one fault it names (R171). -/
theorem fault_of_check {p : Prop} [Decidable p] {f g : BlockFault} (h : (if p then some g else none) = some f) : f = g := by
  obtain ⟨-, hfault⟩ := Option.ite_none_right_eq_some.1 h
  exact (Option.some.inj hfault).symm

/-- Settles O24: FAULT is newly set only where the state check failed, and a command has one check, which raises one fault. -/
theorem blockFaultsArePrecise : Obligations.BlockFaultsArePrecise := by
  intro i s t h hclear hfault
  obtain ⟨hset, -⟩ | ⟨-, f, hcheck, rfl⟩ | ⟨-, -, rfl⟩ := exec_next h
  case inl => simp [hclear] at hset
  case inr.inr => simp [faultBit_commandEffect, hclear] at hfault
  refine ⟨blockFaultCode f, ?_, raiseBlockFault_eq_blockFaulted f s⟩
  cases i with
  | enc ist handler => simp [stateFault] at hcheck
  | setgate vec ist handler => exact congrArg blockFaultCode (fault_of_check hcheck)
  | clrall => exact congrArg blockFaultCode (fault_of_check hcheck)
  | rdslot vec => exact congrArg blockFaultCode (fault_of_check hcheck)
  | load => exact congrArg blockFaultCode (fault_of_check hcheck)

section
variable {s : State} (hfault : faultBit s.status = true)
include hfault

theorem exec_of_faulted (i : Instr) : exec i s = .next s := by
  rw [exec_eq, if_pos hfault]

/-- The block's turn answers some state, and of the three things it can do a faulted block does nothing. -/
theorem blockStep_of_faulted : blockStep s = .next s := by
  obtain ⟨t, ht⟩ := blockStep_answers s
  obtain rfl | ⟨i, hexec⟩ | ⟨hclear, -⟩ := blockStep_next ht
  · exact ht
  · rw [ht, ← hexec, exec_of_faulted hfault]
  · simp [hfault] at hclear

end

/-- Settles O25: `exec_of_faulted` for the commands, `blockStep_of_faulted` for both forms of the block's turn. -/
theorem faultedBlockTakesNoCommand : Obligations.FaultedBlockTakesNoCommand := by
  intro s hfault
  have hturn : blockNext s → step s = .next (turnTaken s) := fun hnext => by
    rw [step_of_blockNext hnext, blockStep_of_faulted (s := turnTaken s) hfault]
  refine ⟨exec_of_faulted hfault, fun hnil => ?_, fun rest hcons => ?_⟩
  · rw [hturn (.inl hnil), turnTaken_of_nil hnil]
  · rw [hturn (.inr ⟨rest, hcons⟩), turnTaken_of_cons hcons]
    rfl

/-! ### What the running consumer meets (R190, R199) -/

section
variable {s : State} (hrun : s.consumer.halted = false)
include hrun

theorem consumerStep_trap (source : TrapSource) (v : Vec) (err : BitVec 64) :
    consumerStep (.trap source v err) s = takeTrap source v err s := by
  simp [consumerStep, hrun]

theorem consumerStep_deliveryFails (v : Vec) (err : BitVec 64) :
    consumerStep (.deliveryFails v err) s = failDelivery v err s := by
  simp [consumerStep, hrun]

theorem consumerStep_handlerEnds : consumerStep .handlerEnds s = endHandler s := by
  simp [consumerStep, hrun]

end

/-! ### Lookup, handler check, delivery (R180-R185) -/

section
variable {s : State} {v : Vec}

theorem gateLookup_of_no_idtr (h : s.idtr = none) : gateLookup s v = .fault .beforeLoad := by
  simp only [gateLookup, h]

theorem resolveGate_of_lookupFault {f : Fault} (h : gateLookup s v = .fault f) : resolveGate s v = .fault f := by
  simp only [resolveGate, h]

/-- A gate that is found resolves when its handler address is valid (R184). -/
theorem resolveGate_of_gate {g : Gate} (h : gateLookup s v = .gate g) :
    resolveGate s v = if validCode s.cfg g.offset then .gate g else .fault .badHandler := by
  simp only [resolveGate, h]

theorem deliver_of_fault {f : Fault} (h : resolveGate s v = .fault f) (err : BitVec 64) : deliver v err s = .fault f := by
  simp only [deliver, h]

theorem deliver_of_gate {g : Gate} (h : resolveGate s v = .gate g) (err : BitVec 64) :
    deliver v err s = enterHandler v err g s := by
  simp only [deliver, h]

/-! ### Who raises the trap (R187, R193, R195) -/

theorem takeExternal_of_enabled (h : interruptsEnabled s.cfg s.consumer.ctx.rflags = true) (err : BitVec 64) :
    takeExternal v err s = deliver v err s := by
  rw [takeExternal, if_pos h]

theorem takeExternal_of_masked (h : interruptsEnabled s.cfg s.consumer.ctx.rflags = false) (err : BitVec 64) :
    takeExternal v err s = .next s := by
  simp [takeExternal, h]

theorem takeSoftware_of_lookupFault {f : Fault} (h : gateLookup s v = .fault f) (err : BitVec 64) :
    takeSoftware v err s = .fault f := by
  simp only [takeSoftware, h]

/-- The privilege check stands between the lookup and the delivery (log 14). -/
theorem takeSoftware_of_gate {g : Gate} (h : gateLookup s v = .gate g) (err : BitVec 64) :
    takeSoftware v err s = if mayInvoke s.cfg s.consumer.ctx g.dpl then deliver v err s else deliver 13#8 err s := by
  simp only [takeSoftware, h]

theorem mayInvoke_of_kernel {c : Config} {ctx : Context} (h : ctx.cs = c.kcodeSel) (dpl : BitVec 2) :
    mayInvoke c ctx dpl = true := by
  simp [mayInvoke, ringZero, h]

/-- Only the kernel's code may invoke a gate of ring 0, which is every gate IDTEL writes (R195). -/
theorem mayInvoke_zero_iff {c : Config} {ctx : Context} : mayInvoke c ctx 0#2 = true ↔ ctx.cs = c.kcodeSel := by
  simp [mayInvoke, ringZero]

/-- A trap that is not masked ends the run with its lookup's fault, from whatever code it comes. -/
theorem takeTrap_of_lookupFault {source : TrapSource} {f : Fault} (h : gateLookup s v = .fault f) (err : BitVec 64)
    (hunmasked : source = .external → interruptsEnabled s.cfg s.consumer.ctx.rflags = true) :
    takeTrap source v err s = .fault f := by
  have hdeliver : deliver v err s = .fault f := deliver_of_fault (resolveGate_of_lookupFault h) err
  cases source with
  | exception => exact hdeliver
  | external => exact (takeExternal_of_enabled (hunmasked rfl) err).trans hdeliver
  | software => exact takeSoftware_of_lookupFault h err

/-- A trap that the consumer takes is delivered. For a software invocation the lookup before the privilege check is the
delivery's own lookup. -/
theorem takeTrap_of_takesTrap {source : TrapSource} (h : takesTrap s source = true) (err : BitVec 64) :
    takeTrap source v err s = deliver v err s := by
  cases source with
  | exception => rfl
  | external => exact takeExternal_of_enabled h err
  | software =>
    cases hlookup : gateLookup s v with
    | fault f =>
      rw [deliver_of_fault (resolveGate_of_lookupFault hlookup)]
      exact takeSoftware_of_lookupFault hlookup err
    | gate g => exact (takeSoftware_of_gate hlookup err).trans (if_pos (mayInvoke_of_kernel (of_decide_eq_true h) g.dpl))

theorem failDelivery_of_fault {f : Fault} (h : resolveGate s v = .fault f) (err : BitVec 64) :
    failDelivery v err s = .fault f := by
  simp only [failDelivery, h]

/-- Once the trap's own gate resolves, its failure is the double fault's delivery, or `DF_DELIVERY` (R191). -/
theorem failDelivery_of_gate {g : Gate} (h : resolveGate s v = .gate g) (err : BitVec 64) :
    failDelivery v err s = if v = 8#8 then .fault .dfDelivery else deliverDoubleFault err s := by
  simp only [failDelivery, h]

end

/-- Settles O46: the lookup fails first, and every source that is not masked reaches it. -/
theorem trapBeforeLoadFaults : Obligations.TrapBeforeLoadFaults := by
  intro s source v err hidtr hrun hunmasked
  rw [consumerStep_trap hrun, takeTrap_of_lookupFault (gateLookup_of_no_idtr hidtr) err hunmasked]

/-- Settles O52: the two branches of an external interrupt. -/
theorem interruptFlagMasks : Obligations.InterruptFlagMasks := by
  intro s v err hrun
  rw [consumerStep_trap hrun]
  exact ⟨fun hmasked => takeExternal_of_masked hmasked err, fun henabled => takeExternal_of_enabled henabled err⟩

/-- Settles O51: the trap's own lookup decides first, then its vector, then the lookup of vector 8. -/
theorem failedDeliveryRaisesDoubleFault : Obligations.FailedDeliveryRaisesDoubleFault := by
  intro s v err hrun
  rw [consumerStep_deliveryFails hrun]
  refine ⟨fun f hfault => failDelivery_of_fault hfault err, fun g hgate => ?_⟩
  rw [failDelivery_of_gate hgate]
  refine ⟨fun hv => if_pos hv, fun f hv h8 => ?_, fun g8 hv h8 => ?_⟩
  · rw [if_neg hv, deliverDoubleFault, h8]
  · rw [if_neg hv, deliverDoubleFault, h8, deliver_of_gate h8]

/-- A trap whose gate does not resolve ends the run with that fault, whether it is taken or fails to be delivered (log 15). -/
theorem consumerStep_of_unresolved {s : State} {source : TrapSource} {v : Vec} {f : Fault} {e : ConsumerEvent} {err : BitVec 64}
    (hrun : s.consumer.halted = false) (htakes : takesTrap s source = true)
    (he : e ∈ [ConsumerEvent.trap source v err, .deliveryFails v err]) (hfault : resolveGate s v = .fault f) :
    consumerStep e s = .fault f := by
  obtain rfl | rfl := by simpa using he
  · rw [consumerStep_trap hrun, takeTrap_of_takesTrap htakes, deliver_of_fault hfault]
  · rw [consumerStep_deliveryFails hrun, failDelivery_of_fault hfault]

/-- Settles O47: in each of the three cases of the slot the gate does not resolve. -/
theorem undeliverableTrapsFault : Obligations.UndeliverableTrapsFault := by
  intro s source v err hstep hreg ha hrun htakes e he
  have hidtr := idtr_of_active hstep hreg ha
  refine ⟨fun hslot => ?_, fun d hslot => ?_⟩
  · exact consumerStep_of_unresolved hrun htakes he (resolveGate_of_lookupFault (gateLookup_of_unwritten hidtr hslot))
  have hlookup := gateLookup_of_written hidtr hslot
  refine ⟨fun hpresent => ?_, fun hpresent hcode => ?_⟩
  · rw [hpresent] at hlookup
    exact consumerStep_of_unresolved hrun htakes he (resolveGate_of_lookupFault hlookup)
  · rw [hpresent] at hlookup
    have hresolve := resolveGate_of_gate hlookup
    rw [hcode] at hresolve
    exact consumerStep_of_unresolved hrun htakes he hresolve

/-- Settles O53: the lookup finds the encoded gate, whose ring is 0. -/
theorem unprivilegedInvocationRefused : Obligations.UnprivilegedInvocationRefused := by
  intro s v err h ist hstep hreg ha hrun hslot
  have hlookup := gateLookup_of_encodeGate (idtr_of_active hstep hreg ha) hslot
  rw [consumerStep_trap hrun, takeTrap, takeSoftware_of_gate hlookup, decodeGate_encodeGate]
  simp only [mayInvoke_zero_iff]

/-! ### The words that entering a handler pushes (R185, R188) -/

section
variable (c : Config) (v : Vec) (err : BitVec 64) (ctx : Context)

theorem pushedWords_size : 8 * (pushedWords c v err ctx).length = if hasErrorCode c v then 48 else 40 := by
  rw [pushedWords]
  split
  · rfl
  · rfl

theorem frameAddr_eq_add (a : Addr) : frameAddr c v a = a + if hasErrorCode c v then 8#64 else 0#64 := by
  rw [frameAddr]
  split
  · rfl
  · exact (BitVec.add_zero a).symm

/-- The error code, where there is one, is read back lowest (R185, R188). -/
theorem memRead_pushedWords_errorCode (h : hasErrorCode c v = true) (m : Memory) (a : Addr) :
    memRead (writeWords m a (pushedWords c v err ctx)) a 8 = some err.toNat := by
  rw [pushedWords, if_pos h]
  exact memRead_writeWords_head m a err (frameWords ctx) (by simp [frameWords])

/-- The frame is read back above the error code, and at the stack pointer where there is none. -/
theorem readWords_pushedWords_frame (m : Memory) (a : Addr) :
    readWords (writeWords m a (pushedWords c v err ctx)) (frameAddr c v a) 5 = some (frameWords ctx) := by
  rw [pushedWords, frameAddr]
  split
  · exact readWords_writeWords_above m a err (frameWords ctx) (by simp [frameWords])
  · exact readWords_writeWords_same m a (frameWords ctx) (by simp [frameWords])

/-- The frame holds the five registers; a selector widened and cut again is itself (log 25). -/
theorem contextOfFrame_frameWords : contextOfFrame (frameWords ctx) = some ctx := by
  have hcut : ∀ sel : Selector, (sel.setWidth 64).setWidth 16 = sel := fun sel => by
    rw [BitVec.setWidth_setWidth_of_le _ (by decide), BitVec.setWidth_eq]
  simp only [frameWords, contextOfFrame, hcut]

end

/-! ### Trap entry (R185-R188) -/

/-- An index in 1..7 names an entry of the stack-switch table, which has seven, so no default is read (R186). -/
theorem stackTop_eq (c : Config) (ist : Ist) (rsp : Addr) :
    stackTop c ist rsp = if ist = 0#3 then rsp else c.altStacks.toList.getD (ist.toNat - 1) 0#64 := by
  have hlt : ist.toNat < 8 := ist.isLt
  by_cases hzero : ist = 0#3
  · rw [if_pos hzero, hzero]
    rfl
  · obtain ⟨n, hn⟩ := Nat.exists_eq_succ_of_ne_zero fun h => hzero (BitVec.eq_of_toNat_eq h)
    have hbound : n < c.altStacks.toList.length := by
      rw [Vector.length_toList]
      omega
    simp only [stackTop, hn, if_neg hzero, Nat.succ_sub_one, List.getD_eq_getElem _ _ hbound]

theorem entryStack_eq_entryTop (s : State) (v : Vec) (g : Gate) :
    entryStack s.cfg v g s.consumer.ctx = entryTop s v g.ist := by
  rw [entryStack, entryTop, stackTop_eq]

theorem interruptsEnabled_maskInterrupts (c : Config) (rflags : BitVec 64) :
    interruptsEnabled c (maskInterrupts c rflags) = false := by
  simp [interruptsEnabled, maskInterrupts]

/-- The consumer right after it enters the handler of `v` through an encoded descriptor (R185-R188). -/
def enteredConsumer (v : Vec) (err : BitVec 64) (h : Addr) (ist : Ist) (s : State) : Consumer where
  ctx := {
    rip := h
    cs := s.cfg.kcodeSel
    rflags := maskInterrupts s.cfg s.consumer.ctx.rflags
    rsp := entryTop s v ist
    ss := s.consumer.ctx.ss }
  handlers := v :: s.consumer.handlers
  halted := s.consumer.halted
  stack := writeWords s.consumer.stack (entryTop s v ist) (pushedWords s.cfg v err s.consumer.ctx)

section
variable {s : State} {v : Vec} {h : Addr} {ist : Ist}

/-- An encoded descriptor is an interrupt gate (R73), so its entry clears the interrupt flag (R187). -/
theorem enterHandler_of_encodeGate
    (htable : touchesTable s.cfg (entryTop s v ist) (if hasErrorCode s.cfg v then 48 else 40) = false) (err : BitVec 64) :
    enterHandler v err (decodeGate (encodeGate h ist s.cfg.kcodeSel)) s =
      .next (s.setConsumer (enteredConsumer v err h ist s)) := by
  simp only [enterHandler, decodeGate_encodeGate, entryFlags, if_pos, entryStack_eq_entryTop, pushedWords_size, htable]
  rfl

theorem resolveGate_of_encodeGate (hidtr : s.idtr = some (payloadOf (tableBase s.cfg)))
    (hslot : readSlot s.cfg s.mem v = some (encodeGate h ist s.cfg.kcodeSel)) (hcode : validCode s.cfg h = true) :
    resolveGate s v = .gate (decodeGate (encodeGate h ist s.cfg.kcodeSel)) := by
  have hoffset : (decodeGate (encodeGate h ist s.cfg.kcodeSel)).offset = h := by rw [decodeGate_encodeGate]
  rw [resolveGate_of_gate (gateLookup_of_encodeGate hidtr hslot), hoffset, if_pos hcode]

end

/-- Settles O48: the trap is delivered, its gate resolves and is entered, and the pushed words are read back. -/
theorem trapEntersHandler : Obligations.TrapEntersHandler := by
  intro s source v err h ist hstep hreg ha hrun htakes hslot hcode htable
  have hresolve := resolveGate_of_encodeGate (idtr_of_active hstep hreg ha) hslot hcode
  refine ⟨s.setConsumer (enteredConsumer v err h ist s), ?enters, ?registers, ?masked, fun herr => ?errorCode, ?frame,
    fun a ha => ?stack⟩
  case enters =>
    rw [consumerStep_trap hrun, takeTrap_of_takesTrap htakes, deliver_of_gate hresolve, enterHandler_of_encodeGate htable]
  case registers =>
    rw [← hrun]
    rfl
  case masked => exact interruptsEnabled_maskInterrupts s.cfg s.consumer.ctx.rflags
  case errorCode => exact memRead_pushedWords_errorCode s.cfg v err s.consumer.ctx herr _ _
  case frame =>
    rw [← frameAddr_eq_add]
    exact readWords_pushedWords_frame s.cfg v err s.consumer.ctx _ _
  case stack =>
    refine readByte_writeWords_other _ a.isLt fun k hk => ?_
    rw [pushedWords_size] at hk
    exact fun heq => ha k hk (BitVec.eq_of_toNat_eq heq)

/-! ### How a handler ends (R189, R190) -/

theorem endHandler_of_doubleFault {s : State} {outer : List Vec} (h : s.consumer.handlers = 8#8 :: outer) :
    endHandler s = .next (haltConsumer s) := by
  simp only [endHandler, h, if_pos]

theorem endHandler_of_other {s : State} {v : Vec} {outer : List Vec} (h : s.consumer.handlers = v :: outer) (hv : v ≠ 8#8) :
    endHandler s = returnFromTrap v outer s := by
  simp only [endHandler, h, if_neg hv]

/-- The trap return through a frame that holds the registers of `ctx`. -/
theorem returnFromTrap_of_frame {s : State} {v : Vec} {ctx : Context} (outer : List Vec)
    (h : readWords s.consumer.stack (frameAddr s.cfg v s.consumer.ctx.rsp) 5 = some (frameWords ctx)) :
    returnFromTrap v outer s = .next (s.setConsumer { s.consumer with ctx := ctx, handlers := outer }) := by
  simp only [returnFromTrap, h, contextOfFrame_frameWords]

/-- A handler that ends right after its entry finds its stack pointer where the entry left it, so the frame read is the frame
pushed. -/
theorem returnFromTrap_of_enterHandler {v : Vec} {err : BitVec 64} {g : Gate} {s t : State}
    (h : enterHandler v err g s = .next t) (outer : List Vec) :
    returnFromTrap v outer t = .next (t.setConsumer { t.consumer with ctx := s.consumer.ctx, handlers := outer }) := by
  obtain ⟨flags, -, -, rfl⟩ := enterHandler_next h
  exact returnFromTrap_of_frame outer (readWords_pushedWords_frame s.cfg v err s.consumer.ctx _ _)

/-- Entering a handler puts it in service, and does not halt the consumer. -/
theorem enterHandler_handlers {v : Vec} {err : BitVec 64} {g : Gate} {s t : State} (h : enterHandler v err g s = .next t) :
    t.consumer.handlers = v :: s.consumer.handlers ∧ t.consumer.halted = s.consumer.halted := by
  obtain ⟨flags, -, -, rfl⟩ := enterHandler_next h
  exact ⟨rfl, rfl⟩

/-- Settles O49: the delivery entered the handler of `v`, which is innermost and ends by the trap return. -/
theorem trapReturnRestoresContext : Obligations.TrapReturnRestoresContext := by
  intro s t v err hv hrun hdeliver
  obtain ⟨g, -, henter⟩ := deliver_next hdeliver
  obtain ⟨hhandlers, hhalted⟩ := enterHandler_handlers henter
  refine ⟨t.setConsumer { t.consumer with ctx := s.consumer.ctx, handlers := s.consumer.handlers }, ?_, rfl, rfl, rfl⟩
  rw [consumerStep_handlerEnds (hhalted.trans hrun), endHandler_of_other hhandlers hv]
  exact returnFromTrap_of_enterHandler henter s.consumer.handlers

/-- Settles O50: the halt ends the handler of vector 8, and a halted consumer meets every event with the fault. -/
theorem doubleFaultHandlerHalts : Obligations.DoubleFaultHandlerHalts := by
  refine ⟨fun s outer hrun hhandlers => ?_, fun s e hhalted => ?_⟩
  · rw [consumerStep_handlerEnds hrun, endHandler_of_doubleFault hhandlers]
    rfl
  · simp only [consumerStep, if_pos hhalted]

end Sys2Proof.Machine
end

section
/-! PROOF. The statement of 70_reset_and_hazards.md: no table write after LOAD (R213). -/

namespace Sys2Proof.Machine

/-! ### SETGATE and CLRALL in phase ACTIVE (R171, R213) -/

/-- The state checks of SETGATE and of CLRALL refuse an active block. -/
theorem stateFault_setgate_of_active {s : State} (ha : activeBit s.status = true) (vec : Vec) (ist : Ist) (handler : Addr) :
    stateFault (.setgate vec ist handler) s = some .writeAfterActivate := by
  simp [stateFault, ha]

theorem stateFault_clrall_of_active {s : State} (ha : activeBit s.status = true) :
    stateFault .clrall s = some .writeAfterActivate := by
  simp [stateFault, ha]

/-- A command that its check refuses as a write after activation sets FAULT and code 4 and advances `CI`, and that is all. -/
theorem exec_of_writeAfterActivate {i : Instr} {s : State} (hf : faultBit s.status = false)
    (hcheck : stateFault i s = some .writeAfterActivate) : exec i s = .next (blockFaulted s 4#32) := by
  rw [exec_of_stateFault hf hcheck, raiseBlockFault_eq_blockFaulted]
  rfl

/-- Settles O21: an active block fails the one check of SETGATE and of CLRALL, whatever the operands. -/
theorem noWriteAfterActivate : Obligations.NoWriteAfterActivate := fun _ vec ist handler hf ha =>
  ⟨exec_of_writeAfterActivate hf (stateFault_setgate_of_active ha vec ist handler),
    exec_of_writeAfterActivate hf (stateFault_clrall_of_active ha)⟩

end Sys2Proof.Machine
end
